-- ==== Sys2Proof/Word.lean ====
section
/-! DEFINITION. The word types of the ZPU (spec/00_scope.md R11): 32-bit words, 8-bit bytes, and the index of a
32-bit stack cell, which is what `sp` holds (spec/10_state.md R22). -/

namespace Sys2Proof

/-- A 32-bit value: a stack cell, a data word, an address on the stack. -/
abbrev Word := BitVec 32

/-- One byte of memory; also one whole instruction (spec/30_encoding.md R70). -/
abbrev Byte := BitVec 8

/-- The index of a 32-bit stack cell, in the widest form the spec allows (ADDR_BITS = 32). -/
abbrev CellIndex := BitVec 30

end Sys2Proof
end

