-- ==== Sys2Proof/Config.lean ====
section
/-! DEFINITION. What one ZPU implementation fixes: the parameters of spec/00_scope.md R8 to R10 and the free values
of R11 (`any32`). The parameters are plain data, held in the machine's state and changed by no step, so that every
statement about every state holds for every implementation (log entry 1). -/

namespace Sys2Proof

/-- BYTE_ORDER (spec/20_memory.md R42). -/
inductive ByteOrder where
  | big
  | little
  deriving DecidableEq, Repr

/-- HALFMULT_EXT (spec/44_optional_mem_branch.md R213): how HALFMULT widens its 16-bit halves. -/
inductive HalfExt where
  | zero
  | sign
  deriving DecidableEq, Repr

/-- What answers at an address of MEM_MAP (spec/20_memory.md R47): plain memory, or a device of the platform, whose
behaviour the spec does not give. -/
inductive RegionKind where
  | plain
  | device
  deriving DecidableEq, Repr

/-- The byte addresses `base, …, base + size - 1` of MEM_MAP. -/
structure Region where
  base : Nat
  size : Nat
  kind : RegionKind
  deriving DecidableEq, Repr

/-- MEM_MAP (spec/20_memory.md R47) as a list of regions; the first region that holds an address decides it. -/
abbrev MemMap := List Region

/-- The parameters of the hardware, spec/00_scope.md R8 to R10. -/
structure Config where
  /-- ADDR_BITS, the spec's `L` (R8): the width of `pc`; `sp` has two bits fewer. -/
  addrBits : Nat
  /-- HW_IMPL (R9): the opcodes of 32..63 that the hardware executes itself. -/
  hwImpl : List Nat
  /-- BYTE_ORDER (spec/20_memory.md R42). -/
  byteOrder : ByteOrder
  /-- MEM_MAP (spec/20_memory.md R47). -/
  memMap : MemMap
  /-- BREAK_ENDS_RUN (spec/60_exceptions.md R245). -/
  breakEndsRun : Bool
  /-- HALFMULT_EXT (spec/44_optional_mem_branch.md R213). -/
  halfmultExt : HalfExt
  deriving DecidableEq, Repr

/-- The default HW_IMPL of spec/00_scope.md R9, the `Impl.` column of the handbook. -/
def defaultHwImpl : List Nat :=
  [34, 35, 36, 37, 38, 39, 41, 42, 43, 44, 45, 46, 47, 48, 49, 50, 51, 52, 53, 54, 55, 56, 57, 59, 61, 63]

/-- The opcodes that have a hardware meaning in the spec and so may be in HW_IMPL: the default set and HALFMULT
(spec/44_optional_mem_branch.md R213). Opcodes 32, 33, 40, 58 and 60 have none (log entry 7). -/
def buildableOpcodes : List Nat := 62 :: defaultHwImpl

/-- MEM_MAP's default for a given ADDR_BITS: plain memory at `0 .. 2^L - 1` (spec/20_memory.md R47). -/
def defaultMemMap (addrBits : Nat) : MemMap := [{ base := 0, size := 2 ^ addrBits, kind := .plain }]

/-- A configuration the spec allows: `10 ≤ L ≤ 32` (spec/00_scope.md R8), only opcodes with a hardware meaning built
(R9, R213), and a MEM_MAP inside the 32-bit byte addresses (spec/20_memory.md R40). -/
def Config.wf (c : Config) : Bool :=
  decide (10 ≤ c.addrBits) && decide (c.addrBits ≤ 32) &&
  c.hwImpl.all (fun op => buildableOpcodes.contains op) &&
  c.memMap.all (fun r => decide (r.base + r.size ≤ 2 ^ 32))

/-- The configuration of `State.reset`: the spec's defaults, and for the two OPEN parameters the values of the spec's
test vectors (ADDR_BITS 16) and of log entry 8 (HALFMULT_EXT, without effect here). DESIGN CHOICE: log entries 2
and 8. -/
def Config.default : Config where
  addrBits := 16
  hwImpl := defaultHwImpl
  byteOrder := .big
  memMap := defaultMemMap 16
  breakEndsRun := true
  halfmultExt := .zero

/-- The free values of the spec, `any32` (spec/00_scope.md R11): "an unconstrained 32-bit value, drawn afresh each
time, that no proof may depend on". The `n`-th draw is `any32 n`; nothing in Lean knows its value (log entry 11). -/
opaque any32 : Nat → Word

end Sys2Proof
end

