-- ==== Sys2Proof/Syntax.lean ====
section
/-! DEFINITION. The instructions of the ZPU: one constructor for each row of spec/opcode_table.json
(spec/30_encoding.md R76, R78, R82, R85). The six alias rows and the generic row EMULATE are constructors too; which
of two names of one byte the decoder answers is said in Decode.lean (log entry 14). -/

namespace Sys2Proof

/-- One ZPU instruction. A field is what the instruction means by it, not how it is stored: the offset of STORESP and
LOADSP is the unsigned `x` of spec/30_encoding.md R74, with its top bit already inverted back. -/
inductive Instr where
  /-- IM x (R100). -/
  | im (x : BitVec 7)
  /-- STORESP x (R110). -/
  | storesp (x : BitVec 5)
  /-- POP = STORESP 0 (R111). -/
  | pop
  /-- POPDOWN = STORESP 1 (R112). -/
  | popdown
  /-- LOADSP x (R113). -/
  | loadsp (x : BitVec 5)
  /-- DUP = LOADSP 0 (R114). -/
  | dup
  /-- DUPSTACKB = LOADSP 1 (R115). -/
  | dupstackb
  /-- ADDSP x (R116). -/
  | addsp (x : BitVec 4)
  /-- ADDTOP = ADDSP 1 (R117). -/
  | addtop
  /-- SHIFT = ADDSP 0 (R118). -/
  | shift
  /-- EMULATE x (R101), the generic name of opcode `32 + x` where it is not built (R79). -/
  | emulate (x : BitVec 5)
  /-- BREAKPOINT (R130). -/
  | breakpoint
  /-- SHIFTLLEFT, not available (R131). -/
  | shiftlleft
  /-- PUSHSP (R132). -/
  | pushsp
  /-- POPINT, not available (R133). -/
  | popint
  /-- POPPC (R134). -/
  | poppc
  /-- ADD (R135). -/
  | add
  /-- AND (R136). -/
  | and
  /-- OR (R137). -/
  | or
  /-- LOAD (R138). -/
  | load
  /-- NOT (R139). -/
  | not
  /-- FLIP (R140). -/
  | flip
  /-- NOP (R141). -/
  | nop
  /-- STORE (R142). -/
  | store
  /-- POPSP (R143). -/
  | popsp
  /-- COMPARE / IPSUM, not available (R144). -/
  | compare
  /-- SNCPY, not available (R145). -/
  | sncpy
  /-- SNCPY2, opcode 32 (R160). -/
  | sncpy2
  /-- WCPY, opcode 33 (R161). -/
  | wcpy
  /-- LOADH, opcode 34 (R201). -/
  | loadh
  /-- STOREH, opcode 35 (R203). -/
  | storeh
  /-- LESSTHAN, opcode 36 (R162). -/
  | lessthan
  /-- LESSTHANOREQUAL, opcode 37 (R163). -/
  | lessthanorequal
  /-- ULESSTHAN, opcode 38 (R164). -/
  | ulessthan
  /-- ULESSTHANOREQUAL, opcode 39 (R165). -/
  | ulessthanorequal
  /-- SWAP, opcode 40 (R166). -/
  | swap
  /-- MULT, opcode 41 (R167). -/
  | mult
  /-- LSHIFTRIGHT, opcode 42 (R168). -/
  | lshiftright
  /-- ASHIFTLEFT, opcode 43 (R169). -/
  | ashiftleft
  /-- ASHIFTRIGHT, opcode 44 (R170). -/
  | ashiftright
  /-- CALL, opcode 45 (R171). -/
  | call
  /-- EQ, opcode 46 (R172). -/
  | eq
  /-- NEQ, opcode 47 (R173). -/
  | neq
  /-- NEG, opcode 48 (R174). -/
  | neg
  /-- SUB, opcode 49 (R175). -/
  | sub
  /-- XOR, opcode 50 (R176). -/
  | xor
  /-- LOADB, opcode 51 (R200). -/
  | loadb
  /-- STOREB, opcode 52 (R202). -/
  | storeb
  /-- DIV, opcode 53 (R204). -/
  | div
  /-- MOD, opcode 54 (R205). -/
  | mod
  /-- EQBRANCH, opcode 55 (R206). -/
  | eqbranch
  /-- NEQBRANCH, opcode 56 (R207). -/
  | neqbranch
  /-- POPPCREL, opcode 57 (R208). -/
  | poppcrel
  /-- CONFIG, opcode 58 (R209). -/
  | config
  /-- PUSHPC, opcode 59 (R210). -/
  | pushpc
  /-- SYSCALL, opcode 60 (R211). -/
  | syscall
  /-- PUSHSPADD, opcode 61 (R212). -/
  | pushspadd
  /-- HALFMULT, opcode 62 (R213). -/
  | halfmult
  /-- CALLPCREL, opcode 63 (R214). -/
  | callpcrel
  deriving DecidableEq, Repr

end Sys2Proof
end

