-- ==== Sys2Proof/WellFormed.lean ====
section
/-! DEFINITION. The check on instruction terms. Every field value is legal (spec/30_encoding.md R81), so nothing is
ill-formed as an instruction; what the check settles is the NAME of a byte. Six field values have a name of their own
(R82), and the 32 opcodes of EMULATE x have theirs (R78): the well-formed term of such a byte is the named one, the
one `decode` answers (log entry 14). -/

namespace Sys2Proof

/-- The term is the canonical name of its byte: STORESP, LOADSP and ADDSP with `x ≥ 2` (the values 0 and 1 are POP,
POPDOWN, DUP, DUPSTACKB, SHIFT, ADDTOP, R82), and EMULATE x only under its opcode's own name (R78, R79). -/
def Instr.wellFormed : Instr → Bool
  | .storesp x => decide (2 ≤ x.toNat)
  | .loadsp x => decide (2 ≤ x.toNat)
  | .addsp x => decide (2 ≤ x.toNat)
  | .emulate _ => false
  | .im _ => true
  | .pop => true
  | .popdown => true
  | .dup => true
  | .dupstackb => true
  | .addtop => true
  | .shift => true
  | .breakpoint => true
  | .shiftlleft => true
  | .pushsp => true
  | .popint => true
  | .poppc => true
  | .add => true
  | .and => true
  | .or => true
  | .load => true
  | .not => true
  | .flip => true
  | .nop => true
  | .store => true
  | .popsp => true
  | .compare => true
  | .sncpy => true
  | .sncpy2 => true
  | .wcpy => true
  | .loadh => true
  | .storeh => true
  | .lessthan => true
  | .lessthanorequal => true
  | .ulessthan => true
  | .ulessthanorequal => true
  | .swap => true
  | .mult => true
  | .lshiftright => true
  | .ashiftleft => true
  | .ashiftright => true
  | .call => true
  | .eq => true
  | .neq => true
  | .neg => true
  | .sub => true
  | .xor => true
  | .loadb => true
  | .storeb => true
  | .div => true
  | .mod => true
  | .eqbranch => true
  | .neqbranch => true
  | .poppcrel => true
  | .config => true
  | .pushpc => true
  | .syscall => true
  | .pushspadd => true
  | .halfmult => true
  | .callpcrel => true

end Sys2Proof
end

