-- ==== Sys2Proof/Decode.lean ====
section
/-! DEFINITION. Decoding and encoding. `decode` reads one byte by the priority of spec/30_encoding.md R72 and is total:
every byte decodes, so nothing is rejected here; the four opcodes that decode to "not available" (R80) are stopped by
their own meanings. `decodeFor` adds the second half of R73 (2): an opcode of 32..63 that is not in HW_IMPL is
EMULATE x. `encode` writes the byte of an instruction from the same tables. -/

namespace Sys2Proof

/-- STORESP x by its offset; offsets 0 and 1 have names of their own (R82). -/
def storespInstr (x : BitVec 5) : Instr :=
  if x = 0#5 then .pop else if x = 1#5 then .popdown else .storesp x

/-- LOADSP x by its offset; offsets 0 and 1 have names of their own (R82). -/
def loadspInstr (x : BitVec 5) : Instr :=
  if x = 0#5 then .dup else if x = 1#5 then .dupstackb else .loadsp x

/-- ADDSP x by its offset; offsets 0 and 1 have names of their own (R82, conflict C1). -/
def addspInstr (x : BitVec 4) : Instr :=
  if x = 0#4 then .shift else if x = 1#4 then .addtop else .addsp x

/-- The sixteen fixed opcodes 0x00..0x0F (R76, R77). -/
def fixedInstr (o : BitVec 4) : Instr :=
  match o.toNat with
  | 0 => .breakpoint
  | 1 => .shiftlleft
  | 2 => .pushsp
  | 3 => .popint
  | 4 => .poppc
  | 5 => .add
  | 6 => .and
  | 7 => .or
  | 8 => .load
  | 9 => .not
  | 10 => .flip
  | 11 => .nop
  | 12 => .store
  | 13 => .popsp
  | 14 => .compare
  | _ => .sncpy

/-- The optional instructions, opcode `32 + x` (R78). -/
def optionalInstr (x : BitVec 5) : Instr :=
  match x.toNat with
  | 0 => .sncpy2
  | 1 => .wcpy
  | 2 => .loadh
  | 3 => .storeh
  | 4 => .lessthan
  | 5 => .lessthanorequal
  | 6 => .ulessthan
  | 7 => .ulessthanorequal
  | 8 => .swap
  | 9 => .mult
  | 10 => .lshiftright
  | 11 => .ashiftleft
  | 12 => .ashiftright
  | 13 => .call
  | 14 => .eq
  | 15 => .neq
  | 16 => .neg
  | 17 => .sub
  | 18 => .xor
  | 19 => .loadb
  | 20 => .storeb
  | 21 => .div
  | 22 => .mod
  | 23 => .eqbranch
  | 24 => .neqbranch
  | 25 => .poppcrel
  | 26 => .config
  | 27 => .pushpc
  | 28 => .syscall
  | 29 => .pushspadd
  | 30 => .halfmult
  | _ => .callpcrel

/-- The instruction of one byte, by the priority on its leading bits (R72). The offset of STORESP and LOADSP is stored
with its top bit inverted (R74, conflict C2). -/
def decode (op : Byte) : Instr :=
  if op.extractLsb' 7 1 = 0b1#1 then .im (op.extractLsb' 0 7)
  else if op.extractLsb' 5 3 = 0b010#3 then storespInstr (op.extractLsb' 0 5 ^^^ 0b10000#5)
  else if op.extractLsb' 5 3 = 0b011#3 then loadspInstr (op.extractLsb' 0 5 ^^^ 0b10000#5)
  else if op.extractLsb' 5 3 = 0b001#3 then optionalInstr (op.extractLsb' 0 5)
  else if op.extractLsb' 4 4 = 0b0001#4 then addspInstr (op.extractLsb' 0 4)
  else fixedInstr (op.extractLsb' 0 4)

/-- Whether the hardware executes the opcode itself: the opcode is in HW_IMPL (spec/00_scope.md R9). -/
def Config.builds (c : Config) (opcode : Nat) : Bool := c.hwImpl.contains opcode

/-- The byte is one of the optional opcodes 32..63, format EMU5 (R71). -/
def isOptionalOpcode (op : Byte) : Bool := op.extractLsb' 5 3 == 0b001#3

/-- R73 (2) and R79: the instruction a machine of configuration `c` executes for the byte `op`. -/
def decodeFor (c : Config) (op : Byte) : Instr :=
  if isOptionalOpcode op && !c.builds op.toNat then .emulate (op.extractLsb' 0 5) else decode op

/-- Decoding at the head of a list of bytes: the instruction and the rest; every instruction is one byte (R70). -/
def decodeBytes : List Byte → Option (Instr × List Byte)
  | [] => none
  | op :: rest => some (decode op, rest)

/-- The byte of an instruction, from the patterns of R71, R74, R76 and R78. -/
def encode : Instr → Byte
  | .im x => 0b1#1 ++ x
  | .storesp x => 0b010#3 ++ (x ^^^ 0b10000#5)
  | .loadsp x => 0b011#3 ++ (x ^^^ 0b10000#5)
  | .addsp x => 0b0001#4 ++ x
  | .emulate x => 0b001#3 ++ x
  | .pop => 0b01010000#8
  | .popdown => 0b01010001#8
  | .dup => 0b01110000#8
  | .dupstackb => 0b01110001#8
  | .addtop => 0b00010001#8
  | .shift => 0b00010000#8
  | .breakpoint => 0b00000000#8
  | .shiftlleft => 0b00000001#8
  | .pushsp => 0b00000010#8
  | .popint => 0b00000011#8
  | .poppc => 0b00000100#8
  | .add => 0b00000101#8
  | .and => 0b00000110#8
  | .or => 0b00000111#8
  | .load => 0b00001000#8
  | .not => 0b00001001#8
  | .flip => 0b00001010#8
  | .nop => 0b00001011#8
  | .store => 0b00001100#8
  | .popsp => 0b00001101#8
  | .compare => 0b00001110#8
  | .sncpy => 0b00001111#8
  | .sncpy2 => 0b00100000#8
  | .wcpy => 0b00100001#8
  | .loadh => 0b00100010#8
  | .storeh => 0b00100011#8
  | .lessthan => 0b00100100#8
  | .lessthanorequal => 0b00100101#8
  | .ulessthan => 0b00100110#8
  | .ulessthanorequal => 0b00100111#8
  | .swap => 0b00101000#8
  | .mult => 0b00101001#8
  | .lshiftright => 0b00101010#8
  | .ashiftleft => 0b00101011#8
  | .ashiftright => 0b00101100#8
  | .call => 0b00101101#8
  | .eq => 0b00101110#8
  | .neq => 0b00101111#8
  | .neg => 0b00110000#8
  | .sub => 0b00110001#8
  | .xor => 0b00110010#8
  | .loadb => 0b00110011#8
  | .storeb => 0b00110100#8
  | .div => 0b00110101#8
  | .mod => 0b00110110#8
  | .eqbranch => 0b00110111#8
  | .neqbranch => 0b00111000#8
  | .poppcrel => 0b00111001#8
  | .config => 0b00111010#8
  | .pushpc => 0b00111011#8
  | .syscall => 0b00111100#8
  | .pushspadd => 0b00111101#8
  | .halfmult => 0b00111110#8
  | .callpcrel => 0b00111111#8

/-- The canonical name of an instruction: the term `decode` answers for its byte (R78, R82). -/
def Instr.canonical : Instr → Instr
  | .storesp x => storespInstr x
  | .loadsp x => loadspInstr x
  | .addsp x => addspInstr x
  | .emulate x => optionalInstr x
  | i => i

/-- A row's `match` and `mask` in spec/opcode_table.json (R85): the byte `op` is the row's instruction when
`op AND mask = match`. -/
structure TableRow where
  pattern : Byte
  mask : Byte
  deriving DecidableEq, Repr

/-- The instruction's row of spec/opcode_table.json. -/
def Instr.tableRow : Instr → TableRow
  | .im _ => ⟨0x80#8, 0x80#8⟩
  | .storesp _ => ⟨0x40#8, 0xe0#8⟩
  | .pop => ⟨0x50#8, 0xff#8⟩
  | .popdown => ⟨0x51#8, 0xff#8⟩
  | .loadsp _ => ⟨0x60#8, 0xe0#8⟩
  | .dup => ⟨0x70#8, 0xff#8⟩
  | .dupstackb => ⟨0x71#8, 0xff#8⟩
  | .addsp _ => ⟨0x10#8, 0xf0#8⟩
  | .addtop => ⟨0x11#8, 0xff#8⟩
  | .shift => ⟨0x10#8, 0xff#8⟩
  | .emulate _ => ⟨0x20#8, 0xe0#8⟩
  | .breakpoint => ⟨0x00#8, 0xff#8⟩
  | .shiftlleft => ⟨0x01#8, 0xff#8⟩
  | .pushsp => ⟨0x02#8, 0xff#8⟩
  | .popint => ⟨0x03#8, 0xff#8⟩
  | .poppc => ⟨0x04#8, 0xff#8⟩
  | .add => ⟨0x05#8, 0xff#8⟩
  | .and => ⟨0x06#8, 0xff#8⟩
  | .or => ⟨0x07#8, 0xff#8⟩
  | .load => ⟨0x08#8, 0xff#8⟩
  | .not => ⟨0x09#8, 0xff#8⟩
  | .flip => ⟨0x0a#8, 0xff#8⟩
  | .nop => ⟨0x0b#8, 0xff#8⟩
  | .store => ⟨0x0c#8, 0xff#8⟩
  | .popsp => ⟨0x0d#8, 0xff#8⟩
  | .compare => ⟨0x0e#8, 0xff#8⟩
  | .sncpy => ⟨0x0f#8, 0xff#8⟩
  | .sncpy2 => ⟨0x20#8, 0xff#8⟩
  | .wcpy => ⟨0x21#8, 0xff#8⟩
  | .loadh => ⟨0x22#8, 0xff#8⟩
  | .storeh => ⟨0x23#8, 0xff#8⟩
  | .lessthan => ⟨0x24#8, 0xff#8⟩
  | .lessthanorequal => ⟨0x25#8, 0xff#8⟩
  | .ulessthan => ⟨0x26#8, 0xff#8⟩
  | .ulessthanorequal => ⟨0x27#8, 0xff#8⟩
  | .swap => ⟨0x28#8, 0xff#8⟩
  | .mult => ⟨0x29#8, 0xff#8⟩
  | .lshiftright => ⟨0x2a#8, 0xff#8⟩
  | .ashiftleft => ⟨0x2b#8, 0xff#8⟩
  | .ashiftright => ⟨0x2c#8, 0xff#8⟩
  | .call => ⟨0x2d#8, 0xff#8⟩
  | .eq => ⟨0x2e#8, 0xff#8⟩
  | .neq => ⟨0x2f#8, 0xff#8⟩
  | .neg => ⟨0x30#8, 0xff#8⟩
  | .sub => ⟨0x31#8, 0xff#8⟩
  | .xor => ⟨0x32#8, 0xff#8⟩
  | .loadb => ⟨0x33#8, 0xff#8⟩
  | .storeb => ⟨0x34#8, 0xff#8⟩
  | .div => ⟨0x35#8, 0xff#8⟩
  | .mod => ⟨0x36#8, 0xff#8⟩
  | .eqbranch => ⟨0x37#8, 0xff#8⟩
  | .neqbranch => ⟨0x38#8, 0xff#8⟩
  | .poppcrel => ⟨0x39#8, 0xff#8⟩
  | .config => ⟨0x3a#8, 0xff#8⟩
  | .pushpc => ⟨0x3b#8, 0xff#8⟩
  | .syscall => ⟨0x3c#8, 0xff#8⟩
  | .pushspadd => ⟨0x3d#8, 0xff#8⟩
  | .halfmult => ⟨0x3e#8, 0xff#8⟩
  | .callpcrel => ⟨0x3f#8, 0xff#8⟩

/-- The instruction the decoder reads from a table row's `nbits` bits `w`: every ZPU instruction is one byte (R70), so
the byte is the 8 bits of `w`. -/
def decodeTableWord (nbits w : Nat) : Option Instr :=
  match nbits with
  | 8 => (decodeBytes [BitVec.ofNat 8 w]).map Prod.fst
  | _ => none

end Sys2Proof
end

