-- ==== Sys2Proof/Machine/State.lean ====
section
/-! DEFINITION. The state of the machine (spec/10_state.md R20), the reasons a step can stop, and the state after
reset (spec/70_reset_and_hazards.md R260 to R266). -/

namespace Sys2Proof.Machine

/-- Memory: the bytes written so far, as (address, byte) pairs in rising order of address (`Memory.wf`). -/
abbrev Memory := List Host.Cell

/-- Why the machine stops with a fault. -/
inductive Fault where
  /-- An instruction fetch, a stack access or a data access touches a byte outside MEM_MAP, where nothing answers:
  the spec's `refuse(unmapped)` (spec/20_memory.md R47, spec/60_exceptions.md R242). Raised by `State.access`.
  Safe: the hardware may go on, the model claims nothing after it. -/
  | unmapped
  /-- A step is asked for after a BREAKPOINT has ended the run (BREAK_ENDS_RUN, spec/60_exceptions.md R245). Raised by
  `step`. Safe: the model claims nothing after the end of the run. -/
  | runEnded
  deriving DecidableEq, Repr

/-- Why an instruction is given no meaning: the reasons of the spec's `refuse` (spec/60_exceptions.md R241). -/
inductive Refusal where
  /-- The instruction has no meaning in the model yet. Raised by `exec` alone. Safe. -/
  | notModelled (mnemonic : String)
  /-- One of the four opcodes the sources mark as not available (spec/30_encoding.md R80). Raised by the meanings of
  SHIFTLLEFT, POPINT, COMPARE and SNCPY. Safe. -/
  | notAvailable (mnemonic : String)
  /-- LOAD, STORE, LOADH or STOREH at an address that is no multiple of the access size (spec/20_memory.md R45).
  Raised by the data operand forms. Safe. -/
  | misaligned
  /-- LOAD, LOADH or LOADB of a byte of Stk[0] or Stk[1] (spec/70_reset_and_hazards.md R268). Raised by the load
  operand form. Safe. -/
  | stackCacheHazard
  /-- A write into the aligned word that holds the executing instruction (spec/20_memory.md R52,
  spec/60_exceptions.md R242 (d)). Raised by `State.writeBytes`. Safe. -/
  | storeIntoExecutingWord
  /-- An access to a byte of MEM_MAP that a platform's device answers; its behaviour "is the platform's to specify"
  (spec/20_memory.md R47). Raised by `State.access`. Safe. -/
  | deviceWindow
  deriving DecidableEq, Repr

/-- The state of the ZPU (spec/10_state.md R20), its parameters, and two fields of the model's own. -/
structure State where
  /-- The parameters of the hardware (spec/00_scope.md R8 to R10). No step changes them (log entry 1). -/
  cfg : Config
  /-- The program counter, a byte address of ADDR_BITS bits (spec/10_state.md R21); the bits above are 0. -/
  pc : Word
  /-- The stack pointer, a cell index of ADDR_BITS - 2 bits (spec/10_state.md R22); the bits above are 0. -/
  sp : CellIndex
  /-- "The previous instruction was IM" (spec/10_state.md R24). -/
  idim : Bool
  /-- The level of the `break` output while the instruction just executed ran (spec/10_state.md R26, log entry 10). -/
  breakLine : Bool
  /-- The `break(PC0)` events, oldest first (spec/10_state.md R26, spec/60_exceptions.md R245). -/
  breakEvents : List Word
  /-- The model's own: a BREAKPOINT has ended the run (spec/60_exceptions.md R245, log entry 9). -/
  runEnded : Bool
  /-- The model's own: how many free values have been drawn (spec/00_scope.md R11, log entry 11). -/
  freeDraws : Nat
  /-- Memory (spec/20_memory.md R40). -/
  mem : Memory
  deriving DecidableEq, Repr

/-- The state after reset for any values of the parameters: `pc = RESET_PC`, `sp = RESET_SP`, `idim = 0`, `break = 0`,
no break events, memory = INITIAL_MEMORY (spec/70_reset_and_hazards.md R260 to R265). -/
def State.resetWith (cfg : Config) (resetPc : Word) (resetSp : CellIndex) (initialMemory : Memory) : State where
  cfg := cfg
  pc := resetPc
  sp := resetSp
  idim := false
  breakLine := false
  breakEvents := []
  runEnded := false
  freeDraws := 0
  mem := initialMemory

/-- The state after reset: the default configuration, RESET_PC = 0x0400 and RESET_SP = 0x400, the values of the spec's
own reset vector V60-9, and no byte of memory given. DESIGN CHOICE: these parameters are OPEN in the spec (log entries
2, 3 and 4). -/
def State.reset : State := State.resetWith Config.default 0x400#32 0x400#30 []

end Sys2Proof.Machine
end

