-- ==== Sys2Proof/Machine/Ops.lean ====
section
/-! DEFINITION. The named operations of the machine: memory, the address map, the program counter, the stack pointer,
the stack cells, the free values, the emulation call and the return from it. -/

namespace Sys2Proof.Machine

/-! ### Outcomes -/

/-- What an operation answers: a value, or the reason the step stops. -/
abbrev Res (α : Type) := Host.Outcome α Fault Refusal

/-- Go on with the value of an operation; a fault or a refusal ends the step. -/
def Res.bind {α β : Type} (r : Res α) (f : α → Res β) : Res β :=
  match r with
  | .next a => f a
  | .fault e => .fault e
  | .refused e => .refused e

/-- Go on where the condition holds; refuse the step where it does not. -/
def require (ok : Bool) (why : Refusal) : Res Unit := if ok then .next () else .refused why

/-! ### Memory as a list of cells (spec/20_memory.md R40, R42) -/

/-- What an address that no cell lists reads as. DESIGN CHOICE (log entry 4): the spec leaves INITIAL_MEMORY open. -/
def unlistedByte : Byte := 0x00#8

/-- The byte at an address. -/
def Memory.read : Memory → Nat → Byte
  | [], _ => unlistedByte
  | (k, v) :: rest, a => if k = a then v else Memory.read rest a

/-- The memory with one byte written, in canonical form again. -/
def Memory.write : Memory → Nat → Byte → Memory
  | [], a, b => if b = unlistedByte then [] else [(a, b)]
  | (k, v) :: rest, a, b =>
    if a < k then (if b = unlistedByte then (k, v) :: rest else (a, b) :: (k, v) :: rest)
    else if a = k then (if b = unlistedByte then rest else (a, b) :: rest)
    else (k, v) :: Memory.write rest a b

/-- The canonical form of the cells at addresses from `lo` on. -/
def Memory.wfFrom : Nat → Memory → Bool
  | _, [] => true
  | lo, (k, v) :: rest => decide (lo ≤ k) && (v != unlistedByte) && Memory.wfFrom (k + 1) rest

/-- The canonical form: addresses strictly rising, no entry equal to what an unlisted address reads as. -/
def Memory.wf (m : Memory) : Bool := Memory.wfFrom 0 m

/-- Consecutive bytes written from an address upward, the first at the lowest address. -/
def Memory.writeList (m : Memory) (a : Nat) : List Byte → Memory
  | [] => m
  | b :: rest => Memory.writeList (m.write a b) (a + 1) rest

/-- `MemRead(a, 2)` in a byte order (spec/20_memory.md R42). -/
def Memory.readHalf (m : Memory) (o : ByteOrder) (a : Nat) : BitVec 16 :=
  match o with
  | .big => m.read a ++ m.read (a + 1)
  | .little => m.read (a + 1) ++ m.read a

/-- `MemRead(a, 4)` in a byte order (spec/20_memory.md R42). -/
def Memory.readWord (m : Memory) (o : ByteOrder) (a : Nat) : Word :=
  match o with
  | .big => m.read a ++ m.read (a + 1) ++ m.read (a + 2) ++ m.read (a + 3)
  | .little => m.read (a + 3) ++ m.read (a + 2) ++ m.read (a + 1) ++ m.read a

/-- The bytes of a 16-bit value, the lowest address first (spec/20_memory.md R42). -/
def halfBytes (o : ByteOrder) (v : BitVec 16) : List Byte :=
  match o with
  | .big => [v.extractLsb' 8 8, v.extractLsb' 0 8]
  | .little => [v.extractLsb' 0 8, v.extractLsb' 8 8]

/-- The bytes of a 32-bit value, the lowest address first (spec/20_memory.md R42). -/
def wordBytes (o : ByteOrder) (v : Word) : List Byte :=
  match o with
  | .big => [v.extractLsb' 24 8, v.extractLsb' 16 8, v.extractLsb' 8 8, v.extractLsb' 0 8]
  | .little => [v.extractLsb' 0 8, v.extractLsb' 8 8, v.extractLsb' 16 8, v.extractLsb' 24 8]

/-- `MemWrite(a, 4, v)` on the bytes of memory (spec/20_memory.md R42). -/
def Memory.writeWord (m : Memory) (o : ByteOrder) (a : Nat) (v : Word) : Memory := m.writeList a (wordBytes o v)

/-! ### What answers at an address (spec/20_memory.md R47) -/

/-- What MEM_MAP has at a byte address: the first region that holds it. -/
def regionAt : MemMap → Nat → Option RegionKind
  | [], _ => none
  | r :: rest, a => if r.base ≤ a ∧ a < r.base + r.size then some r.kind else regionAt rest a

/-- All `n` bytes from `a` are plain memory. -/
def State.plain (s : State) (a n : Nat) : Bool :=
  (List.range n).all fun i => regionAt s.cfg.memMap (a + i) == some .plain

/-- Something answers at all `n` bytes from `a`. -/
def State.mapped (s : State) (a n : Nat) : Bool :=
  (List.range n).all fun i => (regionAt s.cfg.memMap (a + i)).isSome

/-- The access check of spec/60_exceptions.md R242 (a), (b), (c): plain memory goes on, an unmapped byte faults, a
device's byte is refused. Which reason is reported when both apply is not observable (R241, log entry 15). -/
def State.access (s : State) (a n : Nat) : Res Unit :=
  if s.plain a n then .next ()
  else if s.mapped a n then .refused .deviceWindow
  else .fault .unmapped

/-- Some of the `n` bytes from `a` lie in the aligned 32-bit word that holds the executing instruction
(spec/20_memory.md R52). -/
def State.hitsExecutingWord (s : State) (a n : Nat) : Bool :=
  let w := s.pc.toNat - s.pc.toNat % 4
  decide (a < w + 4) && decide (w < a + n)

/-- A write of the `n` bytes from `a` is given a meaning: plain memory, and outside the word being executed. -/
def State.writable (s : State) (a n : Nat) : Bool := s.plain a n && !s.hitsExecutingWord a n

/-- `MemRead(a, 4)` with its refusals. -/
def State.readWord (s : State) (a : Nat) : Res Word :=
  (s.access a 4).bind fun _ => .next (s.mem.readWord s.cfg.byteOrder a)

/-- `MemWrite` of consecutive bytes with its refusals (spec/60_exceptions.md R242 (b), (c), (d)). -/
def State.writeBytes (s : State) (a : Nat) (bytes : List Byte) : Res State :=
  (s.access a bytes.length).bind fun _ =>
  (require (!s.hitsExecutingWord a bytes.length) .storeIntoExecutingWord).bind fun _ =>
  .next { s with mem := s.mem.writeList a bytes }

/-! ### The program counter (spec/10_state.md R21) -/

/-- A 32-bit value as a `pc`: bits `L-1:0` are kept, the higher bits dropped. -/
def wrapPc (c : Config) (v : Word) : Word := (v.setWidth c.addrBits).setWidth 32

/-- `(PC0 + 1) mod 2^L`: the next instruction's address, and every return address. -/
def State.nextPc (s : State) : Word := wrapPc s.cfg (s.pc + 1#32)

/-! ### The stack pointer and the stack cells (spec/10_state.md R22, R23; spec/00_scope.md R11) -/

/-- A cell index as an `sp`: modulo `2^(L-2)`. -/
def wrapSp (c : Config) (v : CellIndex) : CellIndex := (v.setWidth (c.addrBits - 2)).setWidth 30

/-- The state with `sp` moved by `k` cells; upward is toward higher addresses. -/
def State.moveSp (s : State) (k : CellIndex) : State := { s with sp := wrapSp s.cfg (s.sp + k) }

/-- `SA(k)`, the byte address of the cell `k` cells above the top of the stack; `k` may be negative (spec/00_scope.md
R11). -/
def State.sa (s : State) (k : CellIndex) : Nat := 4 * (wrapSp s.cfg (s.sp + k)).toNat

/-- `SPB`, the stack pointer as software sees it: the byte address `4*sp` (spec/10_state.md R23). -/
def State.spb (s : State) : Word := s.sp ++ 0b00#2

/-- `Stk[k]`. -/
def State.readStk (s : State) (k : CellIndex) : Res Word := s.readWord (s.sa k)

/-- `Stk[k] <- v`. -/
def State.writeStk (s : State) (k : CellIndex) (v : Word) : Res State :=
  s.writeBytes (s.sa k) (wordBytes s.cfg.byteOrder v)

/-- `push(v)`: `sp <- sp - 1 ; Stk[0] <- v`. -/
def State.push (s : State) (v : Word) : Res State := (s.moveSp (-1#30)).writeStk 0#30 v

/-- `pop()`: `t = Stk[0] ; sp <- sp + 1`. -/
def State.pop (s : State) : Res (Word × State) :=
  (s.readStk 0#30).bind fun t => .next (t, s.moveSp 1#30)

/-! ### Free values (spec/00_scope.md R11) -/

/-- The value of a result the spec may leave open: the value given, or the next free value. -/
def State.settle (s : State) (r : Option Word) : Word × State :=
  match r with
  | some v => (v, s)
  | none => (any32 s.freeDraws, { s with freeDraws := s.freeDraws + 1 })

/-! ### The common tail of every instruction (spec/30_encoding.md R73 (4), (5)) -/

/-- The end of a step: the new `pc`, the new `idim`, and the `break` output low again. -/
def State.retire (s : State) (pc : Word) (idim : Bool) : State :=
  { s with pc := pc, idim := idim, breakLine := false }

/-- The end of an instruction that is not IM and does not write `pc`. -/
def State.finish (s : State) : Res State := .next (s.retire s.nextPc false)

/-- The end of an instruction that writes `pc`: bits above `L-1` of the target are dropped. -/
def State.jump (s : State) (target : Word) : Res State := .next (s.retire (wrapPc s.cfg target) false)

/-! ### The emulation call and the return from it (spec/60_exceptions.md R244, R248) -/

/-- `EMULATE x`: `push(zext_32((PC0 + 1) mod 2^L)) ; pc <- 32*x` (spec/40_im_emulate.md R101). -/
def State.emulateCall (s : State) (x : BitVec 5) : Res State :=
  (s.push s.nextPc).bind fun t => t.jump (x.setWidth 32 <<< 5)

/-- The return from an emulation routine or a call: `t = pop() ; pc <- t[L-1:0]` (spec/42_core_group.md R134). -/
def State.returnFromCall (s : State) : Res State :=
  s.pop.bind fun r => r.2.jump r.1

/-- R79: an optional opcode has its own effect where the hardware builds it, and is `EMULATE (opcode - 32)` where it
does not. -/
def State.whereBuilt (s : State) (opcode : Nat) (hardware : Res State) : Res State :=
  if s.cfg.builds opcode then hardware else s.emulateCall (BitVec.ofNat 5 (opcode - 32))

/-! ### Fetch (spec/20_memory.md R43) -/

/-- The byte at `pc`: `op = MemRead(pc, 1)`. -/
def State.fetch (s : State) : Res Byte :=
  (s.access s.pc.toNat 1).bind fun _ => .next (s.mem.read s.pc.toNat)

end Sys2Proof.Machine
end

