-- ==== Sys2Proof/Machine/Alu.lean ====
section
/-! DEFINITION. The 32-bit results that instructions compute from `A` (the top of the stack) and `B` (the cell under
it). Sums, differences, products and the bitwise operations are those of 32-bit vectors, modulo `2^32`
(spec/00_scope.md R11). -/

namespace Sys2Proof.Machine

/-- FLIP's result: `r[n] = A[31 - n]` (spec/42_core_group.md R140). -/
def flipBits (a : Word) : Word := a.reverse

/-- LSHIFTRIGHT's result: the count is the whole unsigned `A`; 32 or more gives 0 (spec/43_optional_alu.md R168). -/
def logicalShiftRight (a b : Word) : Word := if a.toNat < 32 then b >>> a.toNat else 0#32

/-- ASHIFTLEFT's result: the count is the whole unsigned `A`; 32 or more gives 0 (spec/43_optional_alu.md R169). -/
def shiftLeft (a b : Word) : Word := if a.toNat < 32 then b <<< a.toNat else 0#32

/-- ASHIFTRIGHT's result: `B` shifted right `min(n, 31)` places, copies of bit 31 entering (spec/43_optional_alu.md
R170). -/
def arithmeticShiftRight (a b : Word) : Word := b.sshiftRight (min a.toNat 31)

/-- The operands for which the spec gives DIV and MOD no result: a divisor `A` of 0, and 0x80000000 by -1
(spec/44_optional_mem_branch.md R204, R205). -/
def divisionOpen (a b : Word) : Bool := (a == 0#32) || (b == 0x80000000#32 && a == 0xFFFFFFFF#32)

/-- DIV's result `B / A`, signed, rounded toward zero; none where the spec says `any32` (R204). -/
def quotient (a b : Word) : Option Word :=
  if divisionOpen a b then none else some (BitVec.ofInt 32 (b.toInt.tdiv a.toInt))

/-- MOD's result `B % A`, with the sign of the dividend; none where the spec says `any32` (R205). -/
def remainder (a b : Word) : Option Word :=
  if divisionOpen a b then none
  else some (BitVec.ofInt 32 (b.toInt - b.toInt.tdiv a.toInt * a.toInt))

/-- HALFMULT's operand: the low 16 bits of a cell, widened as the parameter says (R213). -/
def widenHalf (e : HalfExt) (v : Word) : Word :=
  match e with
  | .zero => (v.setWidth 16).setWidth 32
  | .sign => (v.setWidth 16).signExtend 32

/-- HALFMULT's result where it is built: the product of the widened halves modulo `2^32` (R213). -/
def halfProduct (e : HalfExt) (a b : Word) : Word := widenHalf e a * widenHalf e b

end Sys2Proof.Machine
end

