-- ==== Sys2Proof/Machine/Flags.lean ====
section
/-! DEFINITION. The conditions of the ZPU. It has no status register and no condition flags (spec/10_state.md R20): a
comparison leaves the word 1 or 0 on the stack (spec/43_optional_alu.md R162 to R165, R172, R173), and the branches
test a stack cell (spec/44_optional_mem_branch.md R206, R207). The one flag, `idim`, is written by the common tail
`State.retire` in Ops.lean (spec/10_state.md R24). -/

namespace Sys2Proof.Machine

/-- The result word of a comparison: 1 where it holds, 0 where it does not. -/
def boolWord (b : Bool) : Word := if b then 1#32 else 0#32

/-- LESSTHAN's condition: `signed(A) < signed(B)` (R162, conflict C14). -/
def signedLess (a b : Word) : Bool := decide (a.toInt < b.toInt)

/-- LESSTHANOREQUAL's condition: `signed(A) <= signed(B)` (R163). -/
def signedLessOrEqual (a b : Word) : Bool := decide (a.toInt ≤ b.toInt)

/-- ULESSTHAN's condition: `unsigned(A) < unsigned(B)` (R164). -/
def unsignedLess (a b : Word) : Bool := decide (a.toNat < b.toNat)

/-- ULESSTHANOREQUAL's condition: `unsigned(A) <= unsigned(B)` (R165). -/
def unsignedLessOrEqual (a b : Word) : Bool := decide (a.toNat ≤ b.toNat)

end Sys2Proof.Machine
end

