-- ==== Sys2Proof/Machine/Operands.lean ====
section
/-! DEFINITION. The operand forms of the instructions: which stack cells an instruction reads, what it does with them,
and where its result goes. `A` is `Stk[0]` and `B` is `Stk[1]` at the start (spec/00_scope.md R11). Each form ends
with the common tail of spec/30_encoding.md R73. -/

namespace Sys2Proof.Machine

/-- "POP + PUSH": `Stk[0] <- f(A)`. -/
def unaryForm (f : Word → Word) (s : State) : Res State :=
  (s.readStk 0#30).bind fun a =>
  (s.writeStk 0#30 (f a)).bind fun t => t.finish

/-- "POP + POP + PUSH": `r = f(A, B) ; sp <- sp + 1 ; Stk[0] <- r`. -/
def binaryForm (f : Word → Word → Word) (s : State) : Res State :=
  (s.readStk 0#30).bind fun a =>
  (s.readStk 1#30).bind fun b =>
  ((s.moveSp 1#30).writeStk 0#30 (f a b)).bind fun t => t.finish

/-- "POP + POP + PUSH" where the spec may leave the result open: `any32` in its place, everything else the same. -/
def binaryOpenForm (f : Word → Word → Option Word) (s : State) : Res State :=
  (s.readStk 0#30).bind fun a =>
  (s.readStk 1#30).bind fun b =>
  (((s.settle (f a b)).2.moveSp 1#30).writeStk 0#30 (s.settle (f a b)).1).bind fun t => t.finish

/-- "PUSH": `push(v)`. -/
def pushForm (v : Word) (s : State) : Res State :=
  (s.push v).bind fun t => t.finish

/-- STORESP's form: `Stk[k] <- A ; sp <- sp + 1` (spec/41_stack_relative.md R110). -/
def storeToCell (k : CellIndex) (s : State) : Res State :=
  (s.readStk 0#30).bind fun a =>
  (s.writeStk k a).bind fun t => (t.moveSp 1#30).finish

/-- LOADSP's form: `v = Stk[k] ; push(v)` (spec/41_stack_relative.md R113). -/
def loadFromCell (k : CellIndex) (s : State) : Res State :=
  (s.readStk k).bind fun v => pushForm v s

/-- ADDSP's form: `Stk[0] <- A + Stk[k]` (spec/41_stack_relative.md R116). -/
def addFromCell (k : CellIndex) (s : State) : Res State :=
  (s.readStk 0#30).bind fun a =>
  (s.readStk k).bind fun v =>
  (s.writeStk 0#30 (a + v)).bind fun t => t.finish

/-- `Stk[0] <- return address ; pc <- target(A)`: CALL and CALLPCREL (spec/43_optional_alu.md R171,
spec/44_optional_mem_branch.md R214). -/
def callForm (target : Word → Word) (s : State) : Res State :=
  (s.readStk 0#30).bind fun a =>
  (s.writeStk 0#30 s.nextPc).bind fun t => t.jump (target a)

/-- `sp <- sp + 2 ; if taken(B) then pc <- PC0 + A else pc <- PC0 + 1` (spec/44_optional_mem_branch.md R206, R207). -/
def branchForm (taken : Word → Bool) (s : State) : Res State :=
  (s.readStk 0#30).bind fun a =>
  (s.readStk 1#30).bind fun b =>
  if taken b then (s.moveSp 2#30).jump (s.pc + a) else (s.moveSp 2#30).finish

/-! ### Data addresses (spec/20_memory.md R44, R45, R47) -/

/-- The width of a data access. -/
inductive Width where
  | byte
  | half
  | word
  deriving DecidableEq, Repr

/-- How many bytes a data access touches. -/
def bytesIn (w : Width) : Nat :=
  match w with
  | .byte => 1
  | .half => 2
  | .word => 4

/-- The data value at an address, zero-extended (R44). -/
def State.dataAt (s : State) (w : Width) (a : Nat) : Word :=
  match w with
  | .byte => (s.mem.read a).setWidth 32
  | .half => (s.mem.readHalf s.cfg.byteOrder a).setWidth 32
  | .word => s.mem.readWord s.cfg.byteOrder a

/-- The bytes a data store writes: the low bits of the value, in the byte order (R42, R44). -/
def dataBytes (o : ByteOrder) (w : Width) (v : Word) : List Byte :=
  match w with
  | .byte => [v.extractLsb' 0 8]
  | .half => halfBytes o (v.extractLsb' 0 16)
  | .word => wordBytes o v

/-- The address is a multiple of the access size (R45). -/
def aligned (w : Width) (a : Word) : Bool := a.toNat % bytesIn w == 0

/-- Two runs of bytes share an address. -/
def overlap (a n b m : Nat) : Bool := decide (a < b + m) && decide (b < a + n)

/-- The stack cache hazard: some of the `n` bytes from `a` belong to `Stk[0]` or `Stk[1]`
(spec/70_reset_and_hazards.md R268). -/
def State.hitsCachedCells (s : State) (a n : Nat) : Bool :=
  overlap a n (s.sa 0#30) 4 || overlap a n (s.sa 1#30) 4

/-- LOAD, LOADH, LOADB: the address `A` is replaced by the value at it (spec/42_core_group.md R138,
spec/44_optional_mem_branch.md R200, R201). -/
def loadForm (w : Width) (s : State) : Res State :=
  (s.readStk 0#30).bind fun a =>
  (require (aligned w a) .misaligned).bind fun _ =>
  (require (!s.hitsCachedCells a.toNat (bytesIn w)) .stackCacheHazard).bind fun _ =>
  (s.access a.toNat (bytesIn w)).bind fun _ =>
  (s.writeStk 0#30 (s.dataAt w a.toNat)).bind fun t => t.finish

/-- STORE, STOREH, STOREB: the value `B` is written at the address `A`, then both are popped
(spec/42_core_group.md R142, spec/44_optional_mem_branch.md R202, R203). -/
def storeForm (w : Width) (s : State) : Res State :=
  (s.readStk 0#30).bind fun a =>
  (s.readStk 1#30).bind fun b =>
  (require (aligned w a) .misaligned).bind fun _ =>
  (s.writeBytes a.toNat (dataBytes s.cfg.byteOrder w b)).bind fun t => (t.moveSp 2#30).finish

end Sys2Proof.Machine
end

