-- ==== Sys2Proof/Machine/CoreGroup.lean ====
section
/-! DEFINITION. The sixteen fixed opcodes 0x00 to 0x0F (spec/42_core_group.md R130 to R145). -/

namespace Sys2Proof.Machine

/-- BREAKPOINT (R130, spec/60_exceptions.md R245): the `break` output is 1 for this instruction, the event
`break(PC0)` is recorded, and the run ends where BREAK_ENDS_RUN says so. -/
def execBreakpoint (s : State) : Res State :=
  .next { s with
    pc := s.nextPc
    idim := false
    breakLine := true
    breakEvents := s.breakEvents ++ [s.pc]
    runEnded := s.cfg.breakEndsRun }

/-- SHIFTLLEFT, not available (R131). -/
def execShiftlleft (_s : State) : Res State := .refused (.notAvailable "SHIFTLLEFT")

/-- PUSHSP (R132): the byte address of the top of the stack before the push. -/
def execPushsp (s : State) : Res State := pushForm s.spb s

/-- POPINT, not available (R133). -/
def execPopint (_s : State) : Res State := .refused (.notAvailable "POPINT")

/-- POPPC (R134). -/
def execPoppc (s : State) : Res State := s.returnFromCall

/-- ADD (R135). -/
def execAdd (s : State) : Res State := binaryForm (fun a b => b + a) s

/-- AND (R136). -/
def execAnd (s : State) : Res State := binaryForm (fun a b => b &&& a) s

/-- OR (R137). -/
def execOr (s : State) : Res State := binaryForm (fun a b => b ||| a) s

/-- LOAD (R138, conflict C8). -/
def execLoad (s : State) : Res State := loadForm .word s

/-- NOT (R139). -/
def execNot (s : State) : Res State := unaryForm (fun a => ~~~a) s

/-- FLIP (R140). -/
def execFlip (s : State) : Res State := unaryForm flipBits s

/-- NOP (R141): nothing but the common tail. -/
def execNop (s : State) : Res State := s.finish

/-- STORE (R142). -/
def execStore (s : State) : Res State := storeForm .word s

/-- POPSP (R143): `sp <- A[L-1:2]`. -/
def execPopsp (s : State) : Res State :=
  (s.readStk 0#30).bind fun a =>
  State.finish { s with sp := wrapSp s.cfg (a.extractLsb' 2 30) }

/-- COMPARE / IPSUM, not available (R144). -/
def execCompare (_s : State) : Res State := .refused (.notAvailable "COMPARE")

/-- SNCPY, not available (R145). -/
def execSncpy (_s : State) : Res State := .refused (.notAvailable "SNCPY")

end Sys2Proof.Machine
end

