-- ==== Sys2Proof/Machine/Immediate.lean ====
section
/-! DEFINITION. IM and EMULATE (spec/40_im_emulate.md R100, R101). -/

namespace Sys2Proof.Machine

/-- IM x (R100): with `idim = 0` push the sign-extended field; with `idim = 1` replace the top `A` by
`{A[24:0], x}`. Either way `idim` becomes 1. -/
def execIm (x : BitVec 7) (s : State) : Res State :=
  if s.idim then
    (s.readStk 0#30).bind fun a =>
    (s.writeStk 0#30 (a.extractLsb' 0 25 ++ x)).bind fun t => .next (t.retire t.nextPc true)
  else
    (s.push (x.signExtend 32)).bind fun t => .next (t.retire t.nextPc true)

/-- EMULATE x (R101): the call of the emulation code at byte address `32*x`. -/
def execEmulate (x : BitVec 5) (s : State) : Res State := s.emulateCall x

end Sys2Proof.Machine
end

