-- ==== Sys2Proof/Machine/OptionalAlu.lean ====
section
/-! DEFINITION. The optional instructions of opcodes 32, 33 and 36 to 50 (spec/43_optional_alu.md R160 to R176). Each
has its own effect where its opcode is in HW_IMPL and is an emulation call where it is not (spec/30_encoding.md R79);
SNCPY2, WCPY and SWAP have no hardware effect in the spec and are always emulation calls (log entry 7). -/

namespace Sys2Proof.Machine

/-- SNCPY2, opcode 32: `EMULATE 0` (R160). -/
def execSncpy2 (s : State) : Res State := s.emulateCall 0#5

/-- WCPY, opcode 33: `EMULATE 1` (R161). -/
def execWcpy (s : State) : Res State := s.emulateCall 1#5

/-- LESSTHAN (R162). -/
def execLessthan (s : State) : Res State :=
  s.whereBuilt 36 (binaryForm (fun a b => boolWord (signedLess a b)) s)

/-- LESSTHANOREQUAL (R163). -/
def execLessthanorequal (s : State) : Res State :=
  s.whereBuilt 37 (binaryForm (fun a b => boolWord (signedLessOrEqual a b)) s)

/-- ULESSTHAN (R164). -/
def execUlessthan (s : State) : Res State :=
  s.whereBuilt 38 (binaryForm (fun a b => boolWord (unsignedLess a b)) s)

/-- ULESSTHANOREQUAL (R165). -/
def execUlessthanorequal (s : State) : Res State :=
  s.whereBuilt 39 (binaryForm (fun a b => boolWord (unsignedLessOrEqual a b)) s)

/-- SWAP, opcode 40: `EMULATE 8` (R166, decision D12). -/
def execSwap (s : State) : Res State := s.emulateCall 8#5

/-- MULT (R167): the low 32 bits of the product. -/
def execMult (s : State) : Res State := s.whereBuilt 41 (binaryForm (fun a b => a * b) s)

/-- LSHIFTRIGHT (R168). -/
def execLshiftright (s : State) : Res State := s.whereBuilt 42 (binaryForm logicalShiftRight s)

/-- ASHIFTLEFT (R169). -/
def execAshiftleft (s : State) : Res State := s.whereBuilt 43 (binaryForm shiftLeft s)

/-- ASHIFTRIGHT (R170). -/
def execAshiftright (s : State) : Res State := s.whereBuilt 44 (binaryForm arithmeticShiftRight s)

/-- CALL (R171). -/
def execCall (s : State) : Res State := s.whereBuilt 45 (callForm (fun a => a) s)

/-- EQ (R172). -/
def execEq (s : State) : Res State := s.whereBuilt 46 (binaryForm (fun a b => boolWord (a == b)) s)

/-- NEQ (R173). -/
def execNeq (s : State) : Res State := s.whereBuilt 47 (binaryForm (fun a b => boolWord (a != b)) s)

/-- NEG (R174). -/
def execNeg (s : State) : Res State := s.whereBuilt 48 (unaryForm (fun a => 0#32 - a) s)

/-- SUB (R175): `B - A`. -/
def execSub (s : State) : Res State := s.whereBuilt 49 (binaryForm (fun a b => b - a) s)

/-- XOR (R176). -/
def execXor (s : State) : Res State := s.whereBuilt 50 (binaryForm (fun a b => b ^^^ a) s)

end Sys2Proof.Machine
end

