-- ==== Sys2Proof/Machine/OptionalMemBranch.lean ====
section
/-! DEFINITION. The optional instructions of opcodes 34, 35 and 51 to 63 (spec/44_optional_mem_branch.md R200 to R214).
Each has its own effect where its opcode is in HW_IMPL and is an emulation call where it is not (spec/30_encoding.md
R79); CONFIG and SYSCALL have no hardware effect in the spec and are always emulation calls (log entry 7). -/

namespace Sys2Proof.Machine

/-- LOADB (R200). -/
def execLoadb (s : State) : Res State := s.whereBuilt 51 (loadForm .byte s)

/-- LOADH (R201). -/
def execLoadh (s : State) : Res State := s.whereBuilt 34 (loadForm .half s)

/-- STOREB (R202). -/
def execStoreb (s : State) : Res State := s.whereBuilt 52 (storeForm .byte s)

/-- STOREH (R203). -/
def execStoreh (s : State) : Res State := s.whereBuilt 35 (storeForm .half s)

/-- DIV (R204). -/
def execDiv (s : State) : Res State := s.whereBuilt 53 (binaryOpenForm quotient s)

/-- MOD (R205). -/
def execMod (s : State) : Res State := s.whereBuilt 54 (binaryOpenForm remainder s)

/-- EQBRANCH (R206). -/
def execEqbranch (s : State) : Res State := s.whereBuilt 55 (branchForm (fun b => b == 0#32) s)

/-- NEQBRANCH (R207). -/
def execNeqbranch (s : State) : Res State := s.whereBuilt 56 (branchForm (fun b => b != 0#32) s)

/-- POPPCREL (R208): the offset is relative to the instruction's own byte. -/
def execPoppcrel (s : State) : Res State :=
  s.whereBuilt 57 (s.pop.bind fun r => r.2.jump (s.pc + r.1))

/-- CONFIG, opcode 58: `EMULATE 26` (R209). -/
def execConfig (s : State) : Res State := s.emulateCall 26#5

/-- PUSHPC (R210): the address of the instruction itself. -/
def execPushpc (s : State) : Res State := s.whereBuilt 59 (pushForm s.pc s)

/-- SYSCALL, opcode 60: `EMULATE 28` (R211). -/
def execSyscall (s : State) : Res State := s.emulateCall 28#5

/-- PUSHSPADD (R212): `SPB + 4*A`, with `sp` as it is at the start. -/
def execPushspadd (s : State) : Res State := s.whereBuilt 61 (unaryForm (fun a => s.spb + (a <<< 2)) s)

/-- HALFMULT (R213): the documented product where it is built, `EMULATE 30` where it is not. -/
def execHalfmult (s : State) : Res State := s.whereBuilt 62 (binaryForm (halfProduct s.cfg.halfmultExt) s)

/-- CALLPCREL (R214): the offset is relative to the instruction's own byte. -/
def execCallpcrel (s : State) : Res State := s.whereBuilt 63 (callForm (fun a => s.pc + a) s)

end Sys2Proof.Machine
end

