-- ==== Sys2Proof/Machine/StackRelative.lean ====
section
/-! DEFINITION. The stack-relative instructions and their aliases (spec/41_stack_relative.md R110 to R118). Each alias
is its parameterised instruction with the value of `x` put in (spec/30_encoding.md R82). -/

namespace Sys2Proof.Machine

/-- STORESP x (R110). -/
def execStoresp (x : BitVec 5) (s : State) : Res State := storeToCell (x.setWidth 30) s

/-- POP = STORESP 0 (R111). The cell is read and written back unchanged, as R110 and R82 have it (log entry 13). -/
def execPop (s : State) : Res State := storeToCell 0#30 s

/-- POPDOWN = STORESP 1 (R112). -/
def execPopdown (s : State) : Res State := storeToCell 1#30 s

/-- LOADSP x (R113). -/
def execLoadsp (x : BitVec 5) (s : State) : Res State := loadFromCell (x.setWidth 30) s

/-- DUP = LOADSP 0 (R114). -/
def execDup (s : State) : Res State := loadFromCell 0#30 s

/-- DUPSTACKB = LOADSP 1 (R115). -/
def execDupstackb (s : State) : Res State := loadFromCell 1#30 s

/-- ADDSP x (R116). -/
def execAddsp (x : BitVec 4) (s : State) : Res State := addFromCell (x.setWidth 30) s

/-- ADDTOP = ADDSP 1 (R117). -/
def execAddtop (s : State) : Res State := addFromCell 1#30 s

/-- SHIFT = ADDSP 0 (R118). -/
def execShift (s : State) : Res State := addFromCell 0#30 s

end Sys2Proof.Machine
end

