-- ==== Sys2Proof/Machine/Dispatch.lean ====
section
/-! DEFINITION. One arm per constructor of Instr, each one direct call of that instruction's meaning. -/

namespace Sys2Proof.Machine

def exec (i : Instr) (s : State) : Host.Outcome State Fault Refusal :=
  match i with
  | .im x => Sys2Proof.Machine.execIm x s
  | .storesp x => Sys2Proof.Machine.execStoresp x s
  | .pop => Sys2Proof.Machine.execPop s
  | .popdown => Sys2Proof.Machine.execPopdown s
  | .loadsp x => Sys2Proof.Machine.execLoadsp x s
  | .dup => Sys2Proof.Machine.execDup s
  | .dupstackb => Sys2Proof.Machine.execDupstackb s
  | .addsp x => Sys2Proof.Machine.execAddsp x s
  | .addtop => Sys2Proof.Machine.execAddtop s
  | .shift => Sys2Proof.Machine.execShift s
  | .emulate x => Sys2Proof.Machine.execEmulate x s
  | .breakpoint => Sys2Proof.Machine.execBreakpoint s
  | .shiftlleft => Sys2Proof.Machine.execShiftlleft s
  | .pushsp => Sys2Proof.Machine.execPushsp s
  | .popint => Sys2Proof.Machine.execPopint s
  | .poppc => Sys2Proof.Machine.execPoppc s
  | .add => Sys2Proof.Machine.execAdd s
  | .and => Sys2Proof.Machine.execAnd s
  | .or => Sys2Proof.Machine.execOr s
  | .load => Sys2Proof.Machine.execLoad s
  | .not => Sys2Proof.Machine.execNot s
  | .flip => Sys2Proof.Machine.execFlip s
  | .nop => Sys2Proof.Machine.execNop s
  | .store => Sys2Proof.Machine.execStore s
  | .popsp => Sys2Proof.Machine.execPopsp s
  | .compare => Sys2Proof.Machine.execCompare s
  | .sncpy => Sys2Proof.Machine.execSncpy s
  | .sncpy2 => Sys2Proof.Machine.execSncpy2 s
  | .wcpy => Sys2Proof.Machine.execWcpy s
  | .loadh => Sys2Proof.Machine.execLoadh s
  | .storeh => Sys2Proof.Machine.execStoreh s
  | .lessthan => Sys2Proof.Machine.execLessthan s
  | .lessthanorequal => Sys2Proof.Machine.execLessthanorequal s
  | .ulessthan => Sys2Proof.Machine.execUlessthan s
  | .ulessthanorequal => Sys2Proof.Machine.execUlessthanorequal s
  | .swap => Sys2Proof.Machine.execSwap s
  | .mult => Sys2Proof.Machine.execMult s
  | .lshiftright => Sys2Proof.Machine.execLshiftright s
  | .ashiftleft => Sys2Proof.Machine.execAshiftleft s
  | .ashiftright => Sys2Proof.Machine.execAshiftright s
  | .call => Sys2Proof.Machine.execCall s
  | .eq => Sys2Proof.Machine.execEq s
  | .neq => Sys2Proof.Machine.execNeq s
  | .neg => Sys2Proof.Machine.execNeg s
  | .sub => Sys2Proof.Machine.execSub s
  | .xor => Sys2Proof.Machine.execXor s
  | .loadb => Sys2Proof.Machine.execLoadb s
  | .storeb => Sys2Proof.Machine.execStoreb s
  | .div => Sys2Proof.Machine.execDiv s
  | .mod => Sys2Proof.Machine.execMod s
  | .eqbranch => Sys2Proof.Machine.execEqbranch s
  | .neqbranch => Sys2Proof.Machine.execNeqbranch s
  | .poppcrel => Sys2Proof.Machine.execPoppcrel s
  | .config => Sys2Proof.Machine.execConfig s
  | .pushpc => Sys2Proof.Machine.execPushpc s
  | .syscall => Sys2Proof.Machine.execSyscall s
  | .pushspadd => Sys2Proof.Machine.execPushspadd s
  | .halfmult => Sys2Proof.Machine.execHalfmult s
  | .callpcrel => Sys2Proof.Machine.execCallpcrel s

end Sys2Proof.Machine
end

