-- ==== Sys2Proof/Machine/Step.lean ====
section
/-! DEFINITION. One step of the machine (spec/30_encoding.md R73), and how a word is put where the next step fetches
it. -/

namespace Sys2Proof.Machine

/-- One step: fetch the byte at `pc`, decode it for this hardware's HW_IMPL, execute it. After a BREAKPOINT has ended
the run there is no further step (spec/60_exceptions.md R245). -/
def step (s : State) : Host.Outcome State Fault Refusal :=
  if s.runEnded then .fault .runEnded
  else Res.bind s.fetch fun op => exec (decodeFor s.cfg op) s

/-- The state with the one byte of an instruction placed at `pc`, and the run open, so that the next step runs it
(log entry 17). -/
def State.withFetchWord (s : State) (_nbits w : Nat) : State :=
  { s with mem := s.mem.write s.pc.toNat (BitVec.ofNat 8 w), runEnded := false }

end Sys2Proof.Machine
end

