-- ==== Sys2Proof/Safety.lean ====
section
/-! DEFINITION. The states a run of the machine can be in (`State.wf`), what an instruction needs of the state to go on
(readable and writable cells), what it leaves (`landing`), and the bytes it stores to (`footprint`). -/

namespace Sys2Proof.Machine

/-- Every cell of memory that is listed lies in plain memory (spec/20_memory.md R47). -/
def State.cellsPlain (s : State) : Bool := s.mem.all fun c => regionAt s.cfg.memMap c.1 == some .plain

/-- The invariant of every run: a configuration the spec allows, a `pc` of `L` bits and an `sp` of `L - 2` bits
(spec/10_state.md R21, R22), memory in its canonical form and only where MEM_MAP has plain memory. -/
def State.wf (s : State) : Bool :=
  s.cfg.wf && decide (s.pc.toNat < 2 ^ s.cfg.addrBits) && decide (s.sp.toNat < 2 ^ (s.cfg.addrBits - 2)) &&
  s.mem.wf && s.cellsPlain

/-- The stack cell `Stk[k]` can be read: its four bytes are plain memory. -/
def State.cellReadable (s : State) (k : CellIndex) : Bool := s.plain (s.sa k) 4

/-- The stack cell `Stk[k]` can be written: plain memory, and not the word being executed. -/
def State.cellWritable (s : State) (k : CellIndex) : Bool := s.writable (s.sa k) 4

/-- The value of the stack cell `Stk[k]`. -/
def State.cell (s : State) (k : CellIndex) : Word := s.mem.readWord s.cfg.byteOrder (s.sa k)

/-- Memory after the stack cell `Stk[k]` is given the value `v`. -/
def State.memWithCell (s : State) (k : CellIndex) (v : Word) : Memory :=
  s.mem.writeWord s.cfg.byteOrder (s.sa k) v

/-- What "POP + PUSH" needs: `A` readable and its cell writable. -/
def State.unaryReady (s : State) : Bool := s.cellReadable 0#30 && s.cellWritable 0#30

/-- What "POP + POP + PUSH" needs: `A` and `B` readable and `B`'s cell, which receives the result, writable. -/
def State.binaryReady (s : State) : Bool := s.cellReadable 0#30 && s.cellReadable 1#30 && s.cellWritable 1#30

/-- What "PUSH" needs: the cell below the top writable. -/
def State.pushReady (s : State) : Bool := s.cellWritable (-1#30)

/-- The state an instruction other than IM and BREAKPOINT leaves (spec/30_encoding.md R73): a new `pc`, `sp` and
memory, `idim` 0, the `break` output low, and everything else as it was. -/
def State.landing (s : State) (pc : Word) (sp : CellIndex) (mem : Memory) : State :=
  { s with pc := pc, sp := sp, mem := mem, idim := false, breakLine := false }

/-- `sp` moved by `k` cells, modulo `2^(L-2)` (spec/10_state.md R22). -/
def State.spPlus (s : State) (k : CellIndex) : CellIndex := wrapSp s.cfg (s.sp + k)

/-- The bytes an instruction stores to, as (lowest address, number of bytes); no bytes for an instruction that stores
nothing. The addresses are those the meanings compute: `SA(k)` for a stack cell, the value of `A` for a data store. -/
def footprint (i : Instr) (s : State) : Nat × Nat :=
  let pushed := (s.sa (-1#30), 4)
  let top := (s.sa 0#30, 4)
  let second := (s.sa 1#30, 4)
  let nothing := (0, 0)
  let built (opcode : Nat) (r : Nat × Nat) : Nat × Nat := if s.cfg.builds opcode then r else pushed
  match i with
  | .im _ => if s.idim then top else pushed
  | .storesp x => (s.sa (x.setWidth 30), 4)
  | .pop => top
  | .popdown => second
  | .loadsp _ => pushed
  | .dup => pushed
  | .dupstackb => pushed
  | .addsp _ => top
  | .addtop => top
  | .shift => top
  | .emulate _ => pushed
  | .breakpoint => nothing
  | .shiftlleft => nothing
  | .pushsp => pushed
  | .popint => nothing
  | .poppc => nothing
  | .add => second
  | .and => second
  | .or => second
  | .load => top
  | .not => top
  | .flip => top
  | .nop => nothing
  | .store => ((s.cell 0#30).toNat, 4)
  | .popsp => nothing
  | .compare => nothing
  | .sncpy => nothing
  | .sncpy2 => pushed
  | .wcpy => pushed
  | .loadh => built 34 top
  | .storeh => built 35 ((s.cell 0#30).toNat, 2)
  | .lessthan => built 36 second
  | .lessthanorequal => built 37 second
  | .ulessthan => built 38 second
  | .ulessthanorequal => built 39 second
  | .swap => pushed
  | .mult => built 41 second
  | .lshiftright => built 42 second
  | .ashiftleft => built 43 second
  | .ashiftright => built 44 second
  | .call => built 45 top
  | .eq => built 46 second
  | .neq => built 47 second
  | .neg => built 48 top
  | .sub => built 49 second
  | .xor => built 50 second
  | .loadb => built 51 top
  | .storeb => built 52 ((s.cell 0#30).toNat, 1)
  | .div => built 53 second
  | .mod => built 54 second
  | .eqbranch => built 55 nothing
  | .neqbranch => built 56 nothing
  | .poppcrel => built 57 nothing
  | .config => pushed
  | .pushpc => built 59 pushed
  | .syscall => pushed
  | .pushspadd => built 61 top
  | .halfmult => built 62 second
  | .callpcrel => built 63 top

/-- The byte at address `a` is none of the `n` bytes from `b`. -/
def outside (a b n : Nat) : Prop := a < b ∨ b + n ≤ a

/-- A run of instructions executed one after the other. -/
def execAll : List Instr → State → Res State
  | [], s => .next s
  | i :: rest, s => Res.bind (exec i s) (execAll rest)

end Sys2Proof.Machine
end

