-- ==== Sys2Proof/Certificates/Slice0/Obligations.lean ====
section
/-! DEFINITION. The statements for the provers. In all of them `A` is `s.cell 0#30`, `B` is `s.cell 1#30`
(spec/00_scope.md R11), `s.landing p q m` is the state with `pc = p`, `sp = q`, memory `m`, `idim = 0`, the `break`
output low and EVERYTHING ELSE as in `s`, so that an equation `exec i s = .next (s.landing …)` is the instruction's
result and its frame at once; `s.nextPc` is `(PC0 + 1) mod 2^L`. -/

open Sys2Proof Sys2Proof.Machine

/-! ### Decoding and encoding -/

/-- Decode and encode agree on every instruction under its canonical name, every field at every value the encoding
admits (spec/30_encoding.md R71, R74, R76, R78). -/
def Obligations.DecodeOfEncodeIsTheInstruction : Prop :=
  ∀ i : Instr, i.wellFormed = true → decode (encode i) = i

/-- Every byte decodes to an instruction under its canonical name, and that instruction's byte is the byte (R72: the
decoding is total, no bit is dropped). -/
def Obligations.EveryByteDecodesAndEncodesBack : Prop :=
  ∀ op : Byte, (decode op).wellFormed = true ∧ encode (decode op) = op

/-- Bytes written out from the spec's encodings, one or more of each format, decode to the instruction they stand for
(R71, R74, R76, R78). -/
def Obligations.SampleBytesDecode : Prop :=
  decode 0b11111111#8 = .im 127#7 ∧ decode 0b01000000#8 = .storesp 16#5 ∧ decode 0b01010010#8 = .storesp 2#5 ∧
  decode 0b01001111#8 = .storesp 31#5 ∧ decode 0b01010000#8 = .pop ∧ decode 0b01010001#8 = .popdown ∧
  decode 0b01100000#8 = .loadsp 16#5 ∧ decode 0b01110000#8 = .dup ∧ decode 0b01110001#8 = .dupstackb ∧
  decode 0b00010000#8 = .shift ∧ decode 0b00010001#8 = .addtop ∧ decode 0b00011111#8 = .addsp 15#4 ∧
  decode 0b00000101#8 = .add ∧ decode 0b00001111#8 = .sncpy ∧ decode 0b00100110#8 = .ulessthan ∧
  decode 0b00111111#8 = .callpcrel

/-- R82: each alias has the byte and the effect of its parameterised instruction with the value of `x` put in. -/
def Obligations.AliasIsItsParameterisedInstruction : Prop :=
  (encode .pop = 0x50#8 ∧ encode (.storesp 0#5) = 0x50#8 ∧ encode .popdown = 0x51#8 ∧ encode (.storesp 1#5) = 0x51#8 ∧
    encode .dup = 0x70#8 ∧ encode (.loadsp 0#5) = 0x70#8 ∧ encode .dupstackb = 0x71#8 ∧
    encode (.loadsp 1#5) = 0x71#8 ∧ encode .shift = 0x10#8 ∧ encode (.addsp 0#4) = 0x10#8 ∧
    encode .addtop = 0x11#8 ∧ encode (.addsp 1#4) = 0x11#8) ∧
  ∀ s : State, exec .pop s = exec (.storesp 0#5) s ∧ exec .popdown s = exec (.storesp 1#5) s ∧
    exec .dup s = exec (.loadsp 0#5) s ∧ exec .dupstackb s = exec (.loadsp 1#5) s ∧
    exec .shift s = exec (.addsp 0#4) s ∧ exec .addtop s = exec (.addsp 1#4) s

/-- R79: an opcode of 32..63 in HW_IMPL is executed under its own name; one that is not is executed as EMULATE x with
`x = op[4:0]`, and the instruction's own meaning agrees: it pushes the return address and goes on at `32*x`. -/
def Obligations.OptionalOpcodeIsBuiltOrEmulated : Prop :=
  ∀ (s : State) (op : Byte), isOptionalOpcode op = true →
    (s.cfg.builds op.toNat = true → decodeFor s.cfg op = decode op) ∧
    (s.cfg.builds op.toNat = false →
      decodeFor s.cfg op = .emulate (op.extractLsb' 0 5) ∧
      exec (decode op) s = exec (.emulate (op.extractLsb' 0 5)) s ∧
      (s.pushReady = true → exec (decode op) s =
        .next (s.landing (wrapPc s.cfg (BitVec.ofNat 32 (32 * (op.toNat - 32)))) (s.spPlus (-1#30))
          (s.memWithCell (-1#30) s.nextPc))))

/-! ### The step -/

/-- R73: with the run open and the byte at `pc` in plain memory, the step executes the instruction that byte decodes
to. -/
def Obligations.StepRunsTheDecodedInstruction : Prop :=
  ∀ (s : State) (i : Instr), s.runEnded = false → s.plain s.pc.toNat 1 = true →
    decode (s.mem.read s.pc.toNat) = i → step s = exec i s

/-- R242 (a): a fetch from a byte that MEM_MAP does not hold stops the step; a step after the run has ended stops too
(R245; that it is the fault `runEnded` is the model's choice, log entry 9, and that an unmapped fetch is the fault
`unmapped` is log entry 15). -/
def Obligations.StepStopsAtTheEndAndAtUnmappedCode : Prop :=
  ∀ s : State, (s.runEnded = true → step s = .fault .runEnded) ∧
    (s.runEnded = false → s.mapped s.pc.toNat 1 = false → step s = .fault .unmapped)

/-- Every step keeps the invariant: a configuration the spec allows, `pc` of L bits, `sp` of L - 2 bits (R21, R22),
memory in canonical form and only where MEM_MAP has plain memory (R47). -/
def Obligations.EveryStepKeepsTheStateWellFormed : Prop :=
  ∀ s t : State, s.wf = true → step s = .next t → t.wf = true

/-- The state after reset meets the invariant, for every legal value of the parameters, and so does the model's own
reset state (its parameters are the choices of log entries 2 to 5 and 8). -/
def Obligations.ResetIsWellFormed : Prop :=
  State.reset.wf = true ∧
  ∀ (c : Config) (p : Word) (q : CellIndex) (m : Memory), c.wf = true → p.toNat < 2 ^ c.addrBits →
    q.toNat < 2 ^ (c.addrBits - 2) → m.wf = true →
    (∀ cell ∈ m, regionAt c.memMap cell.1 = some .plain) → (State.resetWith c p q m).wf = true

/-- R260: a run starts with `pc = RESET_PC`, `sp = RESET_SP`, `idim = 0`, `break = 0`, memory = INITIAL_MEMORY, and no
break events (R265), whatever the parameters. -/
def Obligations.ResetStateValues : Prop :=
  ∀ (c : Config) (p : Word) (q : CellIndex) (m : Memory),
    (State.resetWith c p q m).pc = p ∧ (State.resetWith c p q m).sp = q ∧ (State.resetWith c p q m).idim = false ∧
    (State.resetWith c p q m).breakLine = false ∧ (State.resetWith c p q m).breakEvents = [] ∧
    (State.resetWith c p q m).mem = m ∧ (State.resetWith c p q m).cfg = c

/-! ### Rules about every instruction -/

/-- R24: after an instruction `idim` is 1 exactly when it was an IM, and no other instruction reads `idim`: with the
flag either way it does the same. -/
def Obligations.IdimIsSetAndReadOnlyByIm : Prop :=
  (∀ (i : Instr) (s t : State), exec i s = .next t → (t.idim = true ↔ ∃ x, i = .im x)) ∧
  ∀ (i : Instr) (s : State) (b : Bool), (∀ x, i ≠ .im x) → exec i { s with idim := b } = exec i s

/-- R26: only BREAKPOINT raises the `break` output and records an event, `break(PC0)`; the output is low after every
other instruction, and no instruction reads it. (That the state after BREAKPOINT still shows the pulse is the model's
convention, log entry 10.) -/
def Obligations.BreakOutputComesOnlyFromBreakpoint : Prop :=
  (∀ (i : Instr) (s t : State), exec i s = .next t →
    (t.breakLine = true ↔ i = .breakpoint) ∧
    t.breakEvents = (if i = .breakpoint then s.breakEvents ++ [s.pc] else s.breakEvents)) ∧
  ∀ (i : Instr) (s : State) (b : Bool), exec i { s with breakLine := b } = exec i s

/-- The fields no instruction touches: the parameters never change; the end of the run is BREAKPOINT's alone; free
values are drawn by DIV and MOD alone, at most one each (R204, R205). -/
def Obligations.ParametersNeverChange : Prop :=
  ∀ (i : Instr) (s t : State), exec i s = .next t →
    t.cfg = s.cfg ∧
    (i ≠ .breakpoint → t.runEnded = s.runEnded) ∧
    (i ≠ .div → i ≠ .mod → t.freeDraws = s.freeDraws) ∧
    (t.freeDraws = s.freeDraws ∨ t.freeDraws = s.freeDraws + 1)

/-- The frame of memory, for every instruction: when it goes on, every byte outside the bytes it stores to (at the
address its meaning computes, `footprint`) reads as before. -/
def Obligations.BytesOutsideTheFootprintAreKept : Prop :=
  ∀ (i : Instr) (s t : State), exec i s = .next t →
    ∀ a : Nat, outside a (footprint i s).1 (footprint i s).2 → t.mem.read a = s.mem.read a

/-- R47, R52, R242 (b), (c), (d): when an instruction goes on, all the bytes it stores to are in MEM_MAP and none lies in
the aligned word that holds the instruction. That they are plain memory, never a device's, is the model's choice (log
entry 5): R47 leaves what a device does with a store to the platform. -/
def Obligations.EveryStoreIsPermitted : Prop :=
  ∀ (i : Instr) (s t : State), exec i s = .next t → (footprint i s).2 ≠ 0 →
    s.writable (footprint i s).1 (footprint i s).2 = true

/-- R73 (4): on a configuration the spec allows, the instructions that do not transfer control go on at `PC0 + 1`; an
optional instruction is one of them where the hardware builds it. -/
def Obligations.StraightLineAdvancesPcByOne : Prop :=
  ∀ (i : Instr) (s t : State), s.cfg.wf = true → exec i s = .next t →
    (∀ x, i ≠ .emulate x) → i ∉ [Instr.poppc, .call, .eqbranch, .neqbranch, .poppcrel, .callpcrel] →
    (isOptionalOpcode (encode i) = true → s.cfg.builds (encode i).toNat = true) → t.pc = s.nextPc

/-! ### IM and EMULATE -/

/-- R100: an IM with `idim = 0` pushes its field sign-extended; an IM with `idim = 1` puts the field under the low 25
bits of the top of the stack; both leave `idim = 1`. -/
def Obligations.ImPushesOrExtendsTheTop : Prop :=
  ∀ (x : BitVec 7) (s : State), decode (0b1#1 ++ x) = .im x ∧
    (s.idim = false → s.pushReady = true → exec (.im x) s =
      .next { s.landing s.nextPc (s.spPlus (-1#30)) (s.memWithCell (-1#30) (x.signExtend 32)) with idim := true }) ∧
    (s.idim = true → s.unaryReady = true → exec (.im x) s =
      .next { s.landing s.nextPc s.sp (s.memWithCell 0#30 ((s.cell 0#30).extractLsb' 0 25 ++ x)) with idim := true })

/-- R75: a run of IMs that starts with `idim = 0` pushes ONE value, the fields put one after the other, the first
sign-extended, modulo `2^32`. The pushed cell must be plain memory outside every word the run is executed from. -/
def Obligations.ImRunPushesOneConstant : Prop :=
  ∀ (x : BitVec 7) (xs : List (BitVec 7)) (s : State), s.wf = true → s.idim = false →
    (∀ n : Nat, n ≤ xs.length →
      State.cellWritable { s with pc := wrapPc s.cfg (s.pc + BitVec.ofNat 32 n) } (-1#30) = true) →
    ∃ t : State, execAll (Instr.im x :: xs.map Instr.im) s = .next t ∧
      t.sp = s.spPlus (-1#30) ∧ t.idim = true ∧
      t.cell 0#30 = BitVec.ofInt 32 (xs.foldl (fun v y => v * 128 + (y.toNat : Int)) x.toInt) ∧
      t.pc = wrapPc s.cfg (s.pc + BitVec.ofNat 32 (xs.length + 1)) ∧
      ∀ a : Nat, outside a (s.sa (-1#30)) 4 → t.mem.read a = s.mem.read a

/-- R101: `push(zext_32((PC0 + 1) mod 2^L)) ; pc <- (32 * x) mod 2^L`. -/
def Obligations.EmulateCallsItsEntry : Prop :=
  ∀ (x : BitVec 5) (s : State), encode (.emulate x) = 0b001#3 ++ x ∧
    (s.pushReady = true → exec (.emulate x) s =
      .next (s.landing (wrapPc s.cfg (BitVec.ofNat 32 (32 * x.toNat))) (s.spPlus (-1#30))
        (s.memWithCell (-1#30) s.nextPc)))

/-- SNCPY2, WCPY, SWAP, CONFIG and SYSCALL are the emulation calls to 0x000, 0x020, 0x100, 0x340 and 0x380. R160, R161,
R166, R209 and R211 say so because the opcode is not in HW_IMPL (for SWAP by decision D12); that it is so whatever the
parameter holds is the model's inference (log entry 7, DEDUCED). -/
def Obligations.OpcodesWithoutHardwareEffectCallTheirEntry : Prop :=
  (decode 0x20#8 = .sncpy2 ∧ decode 0x21#8 = .wcpy ∧ decode 0x28#8 = .swap ∧ decode 0x3A#8 = .config ∧
    decode 0x3C#8 = .syscall) ∧
  ∀ s : State, s.pushReady = true →
    exec .sncpy2 s = .next (s.landing (wrapPc s.cfg 0x000#32) (s.spPlus (-1#30)) (s.memWithCell (-1#30) s.nextPc)) ∧
    exec .wcpy s = .next (s.landing (wrapPc s.cfg 0x020#32) (s.spPlus (-1#30)) (s.memWithCell (-1#30) s.nextPc)) ∧
    exec .swap s = .next (s.landing (wrapPc s.cfg 0x100#32) (s.spPlus (-1#30)) (s.memWithCell (-1#30) s.nextPc)) ∧
    exec .config s = .next (s.landing (wrapPc s.cfg 0x340#32) (s.spPlus (-1#30)) (s.memWithCell (-1#30) s.nextPc)) ∧
    exec .syscall s = .next (s.landing (wrapPc s.cfg 0x380#32) (s.spPlus (-1#30)) (s.memWithCell (-1#30) s.nextPc))

/-! ### Stack-relative instructions -/

/-- R110, R111, R112: STORESP x writes `A` into `Stk[x]`, counted before the pop, and pops; POP drops the top cell;
POPDOWN deletes the second cell. -/
def Obligations.StorespStoresTheTopAndPops : Prop :=
  ∀ s : State,
    (∀ x : BitVec 5, encode (.storesp x) = 0b010#3 ++ (x ^^^ 0b10000#5) ∧
      (s.cellReadable 0#30 = true → s.cellWritable (x.setWidth 30) = true → exec (.storesp x) s =
        .next (s.landing s.nextPc (s.spPlus 1#30) (s.memWithCell (x.setWidth 30) (s.cell 0#30))))) ∧
    (decode 0x50#8 = .pop ∧ (s.unaryReady = true → exec .pop s =
      .next (s.landing s.nextPc (s.spPlus 1#30) (s.memWithCell 0#30 (s.cell 0#30))))) ∧
    (decode 0x51#8 = .popdown ∧ (s.cellReadable 0#30 = true → s.cellWritable 1#30 = true → exec .popdown s =
      .next (s.landing s.nextPc (s.spPlus 1#30) (s.memWithCell 1#30 (s.cell 0#30)))))

/-- R111: the write of POP changes nothing: in a well-formed state every byte reads as before. -/
def Obligations.PopChangesNoByteOfMemory : Prop :=
  ∀ s t : State, s.wf = true → exec .pop s = .next t → ∀ a : Nat, t.mem.read a = s.mem.read a

/-- R113, R114, R115: LOADSP x pushes `Stk[x]`, counted before the push; DUP pushes `A`; DUPSTACKB pushes `B`. -/
def Obligations.LoadspPushesACell : Prop :=
  ∀ s : State, s.pushReady = true →
    (∀ x : BitVec 5, encode (.loadsp x) = 0b011#3 ++ (x ^^^ 0b10000#5) ∧
      (s.cellReadable (x.setWidth 30) = true → exec (.loadsp x) s =
        .next (s.landing s.nextPc (s.spPlus (-1#30)) (s.memWithCell (-1#30) (s.cell (x.setWidth 30)))))) ∧
    (decode 0x70#8 = .dup ∧ (s.cellReadable 0#30 = true → exec .dup s =
      .next (s.landing s.nextPc (s.spPlus (-1#30)) (s.memWithCell (-1#30) (s.cell 0#30))))) ∧
    (decode 0x71#8 = .dupstackb ∧ (s.cellReadable 1#30 = true → exec .dupstackb s =
      .next (s.landing s.nextPc (s.spPlus (-1#30)) (s.memWithCell (-1#30) (s.cell 1#30)))))

/-- R116, R117, R118: ADDSP x replaces `A` by `A + Stk[x]` modulo `2^32`; ADDTOP adds `B`, which stays; SHIFT doubles
`A`. -/
def Obligations.AddspAddsACellToTheTop : Prop :=
  ∀ s : State, s.unaryReady = true →
    (∀ x : BitVec 4, encode (.addsp x) = 0b0001#4 ++ x ∧
      (s.cellReadable (x.setWidth 30) = true → exec (.addsp x) s =
        .next (s.landing s.nextPc s.sp (s.memWithCell 0#30 (s.cell 0#30 + s.cell (x.setWidth 30)))))) ∧
    (decode 0x11#8 = .addtop ∧ (s.cellReadable 1#30 = true → exec .addtop s =
      .next (s.landing s.nextPc s.sp (s.memWithCell 0#30 (s.cell 0#30 + s.cell 1#30))))) ∧
    (decode 0x10#8 = .shift ∧ exec .shift s =
      .next (s.landing s.nextPc s.sp (s.memWithCell 0#30 (s.cell 0#30 <<< 1))))

/-! ### The fixed opcodes -/

/-- R130: BREAKPOINT emits `break(PC0)`, goes to `PC0 + 1` and changes neither `sp` nor memory; R245: the run ends
there exactly where BREAK_ENDS_RUN is true (the field `runEnded` is the model's form of it, log entry 9). -/
def Obligations.BreakpointEmitsBreak : Prop :=
  decode 0x00#8 = .breakpoint ∧
  ∀ s : State, exec .breakpoint s = .next { s with
    pc := s.nextPc, idim := false, breakLine := true, breakEvents := s.breakEvents ++ [s.pc],
    runEnded := s.cfg.breakEndsRun }

/-- R80, R131, R133, R144, R145: the four opcodes 0x01, 0x03, 0x0E, 0x0F are refused in every state. -/
def Obligations.UnavailableOpcodesAreRefused : Prop :=
  (decode 0x01#8 = .shiftlleft ∧ decode 0x03#8 = .popint ∧ decode 0x0E#8 = .compare ∧ decode 0x0F#8 = .sncpy) ∧
  ∀ s : State, exec .shiftlleft s = .refused (.notAvailable "SHIFTLLEFT") ∧
    exec .popint s = .refused (.notAvailable "POPINT") ∧ exec .compare s = .refused (.notAvailable "COMPARE") ∧
    exec .sncpy s = .refused (.notAvailable "SNCPY")

/-- R132, R210: PUSHSP pushes the byte address `4*sp` of the old top; PUSHPC pushes the address of its own byte. -/
def Obligations.PushspAndPushpcPushAddresses : Prop :=
  (decode 0x02#8 = .pushsp ∧ decode 0x3B#8 = .pushpc) ∧
  ∀ s : State, s.pushReady = true →
    exec .pushsp s = .next (s.landing s.nextPc (s.spPlus (-1#30)) (s.memWithCell (-1#30) (s.sp ++ 0b00#2))) ∧
    (s.cfg.builds 59 = true → exec .pushpc s =
      .next (s.landing s.nextPc (s.spPlus (-1#30)) (s.memWithCell (-1#30) s.pc))) ∧
    (s.cfg.builds 59 = false → exec .pushpc s = exec (.emulate 27#5) s)

/-- R134, R208: POPPC pops the new `pc`; POPPCREL pops an offset from its own address; bits above `L - 1` of the target
are dropped, memory is unchanged. -/
def Obligations.PoppcAndPoppcrelJump : Prop :=
  (decode 0x04#8 = .poppc ∧ decode 0x39#8 = .poppcrel) ∧
  ∀ s : State,
    (s.cellReadable 0#30 = true → exec .poppc s =
      .next (s.landing (wrapPc s.cfg (s.cell 0#30)) (s.spPlus 1#30) s.mem)) ∧
    (s.cfg.builds 57 = true → s.cellReadable 0#30 = true → exec .poppcrel s =
      .next (s.landing (wrapPc s.cfg (s.pc + s.cell 0#30)) (s.spPlus 1#30) s.mem)) ∧
    (s.cfg.builds 57 = false → exec .poppcrel s = exec (.emulate 25#5) s)

/-- R135, R136, R137: ADD, AND and OR replace the two top cells by `B + A` (modulo `2^32`), `B AND A`, `B OR A`. -/
def Obligations.AddAndOrCombineTheTopCells : Prop :=
  (decode 0x05#8 = .add ∧ decode 0x06#8 = .and ∧ decode 0x07#8 = .or) ∧
  ∀ s : State, s.binaryReady = true →
    exec .add s = .next (s.landing s.nextPc (s.spPlus 1#30) (s.memWithCell 1#30 (s.cell 1#30 + s.cell 0#30))) ∧
    exec .and s = .next (s.landing s.nextPc (s.spPlus 1#30) (s.memWithCell 1#30 (s.cell 1#30 &&& s.cell 0#30))) ∧
    exec .or s = .next (s.landing s.nextPc (s.spPlus 1#30) (s.memWithCell 1#30 (s.cell 1#30 ||| s.cell 0#30)))

/-- R139, R140, R174: NOT complements `A`; FLIP reverses its bits, `r[n] = A[31 - n]`; NEG takes its two's complement
where it is built. -/
def Obligations.NotFlipNegReplaceTheTop : Prop :=
  (decode 0x09#8 = .not ∧ decode 0x0A#8 = .flip ∧ decode 0x30#8 = .neg) ∧
  ∀ s : State,
    (s.unaryReady = true →
      exec .not s = .next (s.landing s.nextPc s.sp (s.memWithCell 0#30 (~~~(s.cell 0#30)))) ∧
      (∃ r : Word, (∀ n < 32, r.getLsbD n = (s.cell 0#30).getLsbD (31 - n)) ∧
        exec .flip s = .next (s.landing s.nextPc s.sp (s.memWithCell 0#30 r))) ∧
      (s.cfg.builds 48 = true →
        exec .neg s = .next (s.landing s.nextPc s.sp (s.memWithCell 0#30 (-(s.cell 0#30)))))) ∧
    (s.cfg.builds 48 = false → exec .neg s = exec (.emulate 16#5) s)

/-- R141: NOP does nothing but go to `PC0 + 1` and clear `idim`. -/
def Obligations.NopDoesNothing : Prop :=
  decode 0x0B#8 = .nop ∧ ∀ s : State, exec .nop s = .next (s.landing s.nextPc s.sp s.mem)

/-- R138, R200, R201: LOAD, LOADB and LOADH replace the address `A` by the word, the zero-extended byte or the
zero-extended half at it, where the address is aligned (R45), touches neither `Stk[0]` nor `Stk[1]` (R268), and is
plain memory. -/
def Obligations.LoadsReplaceTheAddressByTheData : Prop :=
  (decode 0x08#8 = .load ∧ decode 0x33#8 = .loadb ∧ decode 0x22#8 = .loadh) ∧
  ∀ s : State,
    (s.unaryReady = true → (s.cell 0#30).toNat % 4 = 0 → s.hitsCachedCells (s.cell 0#30).toNat 4 = false →
      s.plain (s.cell 0#30).toNat 4 = true → exec .load s =
      .next (s.landing s.nextPc s.sp
        (s.memWithCell 0#30 (s.mem.readWord s.cfg.byteOrder (s.cell 0#30).toNat)))) ∧
    (s.cfg.builds 51 = true → s.unaryReady = true → s.hitsCachedCells (s.cell 0#30).toNat 1 = false →
      s.plain (s.cell 0#30).toNat 1 = true → exec .loadb s =
      .next (s.landing s.nextPc s.sp (s.memWithCell 0#30 ((s.mem.read (s.cell 0#30).toNat).setWidth 32)))) ∧
    (s.cfg.builds 34 = true → s.unaryReady = true → (s.cell 0#30).toNat % 2 = 0 →
      s.hitsCachedCells (s.cell 0#30).toNat 2 = false → s.plain (s.cell 0#30).toNat 2 = true → exec .loadh s =
      .next (s.landing s.nextPc s.sp
        (s.memWithCell 0#30 ((s.mem.readHalf s.cfg.byteOrder (s.cell 0#30).toNat).setWidth 32)))) ∧
    (s.cfg.builds 51 = false → exec .loadb s = exec (.emulate 19#5) s) ∧
    (s.cfg.builds 34 = false → exec .loadh s = exec (.emulate 2#5) s)

/-- R142, R202, R203: STORE, STOREB and STOREH write `B`, `B[7:0]` or `B[15:0]` at the address `A` and pop two cells,
where the address is aligned (R45), plain memory, and outside the word being executed (R52). -/
def Obligations.StoresWriteTheDataAndPopTwo : Prop :=
  (decode 0x0C#8 = .store ∧ decode 0x34#8 = .storeb ∧ decode 0x23#8 = .storeh) ∧
  ∀ s : State,
    (s.cellReadable 0#30 = true → s.cellReadable 1#30 = true →
      ((s.cell 0#30).toNat % 4 = 0 → s.writable (s.cell 0#30).toNat 4 = true → exec .store s =
        .next (s.landing s.nextPc (s.spPlus 2#30)
          (s.mem.writeWord s.cfg.byteOrder (s.cell 0#30).toNat (s.cell 1#30)))) ∧
      (s.cfg.builds 52 = true → s.writable (s.cell 0#30).toNat 1 = true → exec .storeb s =
        .next (s.landing s.nextPc (s.spPlus 2#30)
          (s.mem.write (s.cell 0#30).toNat ((s.cell 1#30).extractLsb' 0 8)))) ∧
      (s.cfg.builds 35 = true → (s.cell 0#30).toNat % 2 = 0 → s.writable (s.cell 0#30).toNat 2 = true →
        exec .storeh s = .next (s.landing s.nextPc (s.spPlus 2#30)
          (s.mem.writeList (s.cell 0#30).toNat (halfBytes s.cfg.byteOrder ((s.cell 1#30).extractLsb' 0 16)))))) ∧
    (s.cfg.builds 52 = false → exec .storeb s = exec (.emulate 20#5) s) ∧
    (s.cfg.builds 35 = false → exec .storeh s = exec (.emulate 3#5) s)

/-- R143: POPSP sets `sp` to bits `L-1:2` of `A` and changes no memory. -/
def Obligations.PopspLoadsSp : Prop :=
  decode 0x0D#8 = .popsp ∧
  ∀ s : State, s.cellReadable 0#30 = true → exec .popsp s =
    .next (s.landing s.nextPc (wrapSp s.cfg ((s.cell 0#30).extractLsb' 2 30)) s.mem)

/-! ### The optional instructions -/

/-- R162 to R165: the comparisons leave 1 where `A` is less than (or equal to) `B`, 0 where it is not, as two's
complement or unsigned numbers. -/
def Obligations.ComparisonsLeaveOneOrZero : Prop :=
  (decode 0x24#8 = .lessthan ∧ decode 0x25#8 = .lessthanorequal ∧ decode 0x26#8 = .ulessthan ∧
    decode 0x27#8 = .ulessthanorequal) ∧
  ∀ s : State,
    (s.binaryReady = true →
      (s.cfg.builds 36 = true → exec .lessthan s = .next (s.landing s.nextPc (s.spPlus 1#30)
        (s.memWithCell 1#30 (if (s.cell 0#30).toInt < (s.cell 1#30).toInt then 1#32 else 0#32)))) ∧
      (s.cfg.builds 37 = true → exec .lessthanorequal s = .next (s.landing s.nextPc (s.spPlus 1#30)
        (s.memWithCell 1#30 (if (s.cell 0#30).toInt ≤ (s.cell 1#30).toInt then 1#32 else 0#32)))) ∧
      (s.cfg.builds 38 = true → exec .ulessthan s = .next (s.landing s.nextPc (s.spPlus 1#30)
        (s.memWithCell 1#30 (if (s.cell 0#30).toNat < (s.cell 1#30).toNat then 1#32 else 0#32)))) ∧
      (s.cfg.builds 39 = true → exec .ulessthanorequal s = .next (s.landing s.nextPc (s.spPlus 1#30)
        (s.memWithCell 1#30 (if (s.cell 0#30).toNat ≤ (s.cell 1#30).toNat then 1#32 else 0#32))))) ∧
    (s.cfg.builds 36 = false → exec .lessthan s = exec (.emulate 4#5) s) ∧
    (s.cfg.builds 37 = false → exec .lessthanorequal s = exec (.emulate 5#5) s) ∧
    (s.cfg.builds 38 = false → exec .ulessthan s = exec (.emulate 6#5) s) ∧
    (s.cfg.builds 39 = false → exec .ulessthanorequal s = exec (.emulate 7#5) s)

/-- R172, R173: EQ leaves 1 where all 32 bits of `A` and `B` are equal, NEQ where they are not. -/
def Obligations.EqAndNeqCompareAllBits : Prop :=
  (decode 0x2E#8 = .eq ∧ decode 0x2F#8 = .neq) ∧
  ∀ s : State,
    (s.binaryReady = true →
      (s.cfg.builds 46 = true → exec .eq s = .next (s.landing s.nextPc (s.spPlus 1#30)
        (s.memWithCell 1#30 (if s.cell 0#30 = s.cell 1#30 then 1#32 else 0#32)))) ∧
      (s.cfg.builds 47 = true → exec .neq s = .next (s.landing s.nextPc (s.spPlus 1#30)
        (s.memWithCell 1#30 (if s.cell 0#30 = s.cell 1#30 then 0#32 else 1#32))))) ∧
    (s.cfg.builds 46 = false → exec .eq s = exec (.emulate 14#5) s) ∧
    (s.cfg.builds 47 = false → exec .neq s = exec (.emulate 15#5) s)

/-- R167, R175, R176: MULT leaves the low 32 bits of the product, SUB `B - A` modulo `2^32`, XOR `B XOR A`. -/
def Obligations.MultSubXorCombineTheTopCells : Prop :=
  (decode 0x29#8 = .mult ∧ decode 0x31#8 = .sub ∧ decode 0x32#8 = .xor) ∧
  ∀ s : State,
    (s.binaryReady = true →
      (s.cfg.builds 41 = true → exec .mult s = .next (s.landing s.nextPc (s.spPlus 1#30)
        (s.memWithCell 1#30 (BitVec.ofNat 32 ((s.cell 0#30).toNat * (s.cell 1#30).toNat))))) ∧
      (s.cfg.builds 49 = true → exec .sub s = .next (s.landing s.nextPc (s.spPlus 1#30)
        (s.memWithCell 1#30 (s.cell 1#30 - s.cell 0#30)))) ∧
      (s.cfg.builds 50 = true → exec .xor s = .next (s.landing s.nextPc (s.spPlus 1#30)
        (s.memWithCell 1#30 (s.cell 1#30 ^^^ s.cell 0#30))))) ∧
    (s.cfg.builds 41 = false → exec .mult s = exec (.emulate 9#5) s) ∧
    (s.cfg.builds 49 = false → exec .sub s = exec (.emulate 17#5) s) ∧
    (s.cfg.builds 50 = false → exec .xor s = exec (.emulate 18#5) s)

/-- R168, R169, R170: the shifts move `B` by the whole unsigned `A`; a count of 32 or more leaves 0, or all sign bits
for ASHIFTRIGHT. Each result is given bit by bit. -/
def Obligations.ShiftsUseTheWholeCount : Prop :=
  (decode 0x2A#8 = .lshiftright ∧ decode 0x2B#8 = .ashiftleft ∧ decode 0x2C#8 = .ashiftright) ∧
  ∀ s : State,
    (s.binaryReady = true →
      (s.cfg.builds 42 = true → ∃ r : Word,
        (∀ i < 32, r.getLsbD i = (s.cell 1#30).getLsbD (i + (s.cell 0#30).toNat)) ∧
        exec .lshiftright s = .next (s.landing s.nextPc (s.spPlus 1#30) (s.memWithCell 1#30 r))) ∧
      (s.cfg.builds 43 = true → ∃ r : Word,
        (∀ i < 32, r.getLsbD i = (decide ((s.cell 0#30).toNat ≤ i) &&
          (s.cell 1#30).getLsbD (i - (s.cell 0#30).toNat))) ∧
        exec .ashiftleft s = .next (s.landing s.nextPc (s.spPlus 1#30) (s.memWithCell 1#30 r))) ∧
      (s.cfg.builds 44 = true → ∃ r : Word,
        (∀ i < 32, r.getLsbD i = (if i + (s.cell 0#30).toNat < 32
          then (s.cell 1#30).getLsbD (i + (s.cell 0#30).toNat) else (s.cell 1#30).getLsbD 31)) ∧
        exec .ashiftright s = .next (s.landing s.nextPc (s.spPlus 1#30) (s.memWithCell 1#30 r)))) ∧
    (s.cfg.builds 42 = false → exec .lshiftright s = exec (.emulate 10#5) s) ∧
    (s.cfg.builds 43 = false → exec .ashiftleft s = exec (.emulate 11#5) s) ∧
    (s.cfg.builds 44 = false → exec .ashiftright s = exec (.emulate 12#5) s)

/-- R171, R214: CALL goes to `A[L-1:0]`, CALLPCREL to `(PC0 + A)[L-1:0]`; both replace the top of the stack by the
return address. -/
def Obligations.CallsReplaceTheTargetByTheReturnAddress : Prop :=
  (decode 0x2D#8 = .call ∧ decode 0x3F#8 = .callpcrel) ∧
  ∀ s : State,
    (s.unaryReady = true →
      (s.cfg.builds 45 = true → exec .call s =
        .next (s.landing (wrapPc s.cfg (s.cell 0#30)) s.sp (s.memWithCell 0#30 s.nextPc))) ∧
      (s.cfg.builds 63 = true → exec .callpcrel s =
        .next (s.landing (wrapPc s.cfg (s.pc + s.cell 0#30)) s.sp (s.memWithCell 0#30 s.nextPc)))) ∧
    (s.cfg.builds 45 = false → exec .call s = exec (.emulate 13#5) s) ∧
    (s.cfg.builds 63 = false → exec .callpcrel s = exec (.emulate 31#5) s)

/-- R206, R207: EQBRANCH and NEQBRANCH pop two cells whether or not they branch, and go to `PC0 + A` where `B` is zero
(EQBRANCH) or not zero (NEQBRANCH), else to `PC0 + 1`. -/
def Obligations.BranchesTestTheSecondCellAndPopTwo : Prop :=
  (decode 0x37#8 = .eqbranch ∧ decode 0x38#8 = .neqbranch) ∧
  ∀ s : State,
    (s.cellReadable 0#30 = true → s.cellReadable 1#30 = true →
      (s.cfg.builds 55 = true → exec .eqbranch s = .next (s.landing
        (if s.cell 1#30 = 0#32 then wrapPc s.cfg (s.pc + s.cell 0#30) else s.nextPc) (s.spPlus 2#30) s.mem)) ∧
      (s.cfg.builds 56 = true → exec .neqbranch s = .next (s.landing
        (if s.cell 1#30 = 0#32 then s.nextPc else wrapPc s.cfg (s.pc + s.cell 0#30)) (s.spPlus 2#30) s.mem))) ∧
    (s.cfg.builds 55 = false → exec .eqbranch s = exec (.emulate 23#5) s) ∧
    (s.cfg.builds 56 = false → exec .neqbranch s = exec (.emulate 24#5) s)

/-- R212: PUSHSPADD replaces `A` by `SPB + 4*A` modulo `2^32`, with `sp` as it is at the start. -/
def Obligations.PushspaddAddsFourTimesTheTop : Prop :=
  decode 0x3D#8 = .pushspadd ∧
  ∀ s : State,
    (s.cfg.builds 61 = true → s.unaryReady = true → exec .pushspadd s =
      .next (s.landing s.nextPc s.sp
        (s.memWithCell 0#30 (BitVec.ofNat 32 (4 * s.sp.toNat + 4 * (s.cell 0#30).toNat))))) ∧
    (s.cfg.builds 61 = false → exec .pushspadd s = exec (.emulate 29#5) s)

/-- R213: HALFMULT, where it is built, leaves the product of the low halves of `A` and `B`, both zero-extended or both
sign-extended as HALFMULT_EXT says; where it is not built (the default) it is EMULATE 30. -/
def Obligations.HalfmultMultipliesTheLowHalves : Prop :=
  decode 0x3E#8 = .halfmult ∧
  ∀ s : State,
    (s.cfg.builds 62 = true → s.binaryReady = true → exec .halfmult s =
      .next (s.landing s.nextPc (s.spPlus 1#30) (s.memWithCell 1#30
        (match s.cfg.halfmultExt with
          | .zero => BitVec.ofNat 32 (((s.cell 0#30).toNat % 2 ^ 16) * ((s.cell 1#30).toNat % 2 ^ 16))
          | .sign => BitVec.ofInt 32
              (((s.cell 0#30).setWidth 16).toInt * ((s.cell 1#30).setWidth 16).toInt))))) ∧
    (s.cfg.builds 62 = false → exec .halfmult s = exec (.emulate 30#5) s)

/-- R204, R205, the results the spec gives: DIV leaves `B / A`, signed and rounded toward zero; MOD leaves the
remainder with the sign of the dividend; for every divisor but 0, and not for 0x80000000 by -1. -/
def Obligations.DivAndModRoundTowardZero : Prop :=
  (decode 0x35#8 = .div ∧ decode 0x36#8 = .mod) ∧
  ∀ s : State,
    (s.binaryReady = true → s.cell 0#30 ≠ 0#32 →
      ¬(s.cell 1#30 = 0x80000000#32 ∧ s.cell 0#30 = 0xFFFFFFFF#32) →
      (s.cfg.builds 53 = true → exec .div s = .next (s.landing s.nextPc (s.spPlus 1#30)
        (s.memWithCell 1#30 (BitVec.ofInt 32 ((s.cell 1#30).toInt.tdiv (s.cell 0#30).toInt))))) ∧
      (s.cfg.builds 54 = true → exec .mod s = .next (s.landing s.nextPc (s.spPlus 1#30)
        (s.memWithCell 1#30 (BitVec.ofInt 32 ((s.cell 1#30).toInt.tmod (s.cell 0#30).toInt)))))) ∧
    (s.cfg.builds 53 = false → exec .div s = exec (.emulate 21#5) s) ∧
    (s.cfg.builds 54 = false → exec .mod s = exec (.emulate 22#5) s)

/-- R204, R205, the results the spec leaves open (`any32`): division by 0, and 0x80000000 by -1. DIV and MOD run all
the same; the result is the next free value, whatever it is, and everything else is as for any division. -/
def Obligations.OpenDivisionsRunWithAFreeValue : Prop :=
  ∀ s : State, s.binaryReady = true →
    (s.cell 0#30 = 0#32 ∨ (s.cell 1#30 = 0x80000000#32 ∧ s.cell 0#30 = 0xFFFFFFFF#32)) →
    (s.cfg.builds 53 = true → exec .div s = .next
      { s.landing s.nextPc (s.spPlus 1#30) (s.memWithCell 1#30 (any32 s.freeDraws)) with
        freeDraws := s.freeDraws + 1 }) ∧
    (s.cfg.builds 54 = true → exec .mod s = .next
      { s.landing s.nextPc (s.spPlus 1#30) (s.memWithCell 1#30 (any32 s.freeDraws)) with
        freeDraws := s.freeDraws + 1 })

/-- R205's identity "(a/b)*b + a%b = a" on the results of DIV and MOD, and the sizes and signs that fix both: the
remainder is smaller than the divisor and never of the sign opposite to the dividend's. -/
def Obligations.QuotientAndRemainderMakeTheDividend : Prop :=
  ∀ a b q r : Word, quotient a b = some q → remainder a b = some r →
    q.toInt * a.toInt + r.toInt = b.toInt ∧ r.toInt.natAbs < a.toInt.natAbs ∧ 0 ≤ r.toInt * b.toInt

/-! ### Where an instruction is refused -/

/-- R45: LOAD and STORE at an address that is no multiple of 4, LOADH and STOREH at an odd address, are refused as
misaligned; LOADB and STOREB never are. -/
def Obligations.MisalignedDataAddressIsRefused : Prop :=
  ∀ s : State,
    (s.cellReadable 0#30 = true →
      ((s.cell 0#30).extractLsb' 0 2 ≠ 0#2 → exec .load s = .refused .misaligned ∧
        (s.cellReadable 1#30 = true → exec .store s = .refused .misaligned)) ∧
      ((s.cell 0#30).getLsbD 0 = true →
        (s.cfg.builds 34 = true → exec .loadh s = .refused .misaligned) ∧
        (s.cfg.builds 35 = true → s.cellReadable 1#30 = true → exec .storeh s = .refused .misaligned))) ∧
    exec .loadb s ≠ .refused .misaligned ∧ exec .storeb s ≠ .refused .misaligned

/-- R268: a LOAD, LOADH or LOADB any of whose bytes is one of the eight bytes of `Stk[0]` and `Stk[1]` is refused; at an
aligned address the reason is the hazard (at another it is R45's, and which is reported is the model's choice, log
entry 15). -/
def Obligations.StackCacheHazardIsRefused : Prop :=
  ∀ (s : State) (k : CellIndex) (i j : Nat), s.cellReadable 0#30 = true → (k = 0#30 ∨ k = 1#30) → i < 4 →
    (j < 4 → (s.cell 0#30).toNat + j = s.sa k + i →
      (∃ r, exec .load s = .refused r) ∧
      ((s.cell 0#30).toNat % 4 = 0 → exec .load s = .refused .stackCacheHazard)) ∧
    (s.cfg.builds 34 = true → j < 2 → (s.cell 0#30).toNat + j = s.sa k + i →
      (∃ r, exec .loadh s = .refused r) ∧
      ((s.cell 0#30).toNat % 2 = 0 → exec .loadh s = .refused .stackCacheHazard)) ∧
    (s.cfg.builds 51 = true → (s.cell 0#30).toNat = s.sa k + i → exec .loadb s = .refused .stackCacheHazard)

/-- R52, R242 (b), (d) for every push into a new cell: IM with `idim = 0`, LOADSP x, DUP, DUPSTACKB, PUSHSP, PUSHPC
where it is built, EMULATE x, and every optional opcode that is not built. It is refused where the new cell is the word
being executed, and stops at a cell some byte of which is unmapped (the fault `unmapped`, log entry 15). -/
def Obligations.PushIntoExecutingWordOrUnmappedCellStops : Prop :=
  ∀ (s : State) (stop : Res State),
    (s.plain (s.sa (-1#30)) 4 = true ∧ s.hitsExecutingWord (s.sa (-1#30)) 4 = true ∧
        stop = .refused .storeIntoExecutingWord) ∨
      (s.mapped (s.sa (-1#30)) 4 = false ∧ stop = .fault .unmapped) →
    (s.idim = false → ∀ x : BitVec 7, exec (.im x) s = stop) ∧
    (∀ x : BitVec 5, s.cellReadable (x.setWidth 30) = true → exec (.loadsp x) s = stop) ∧
    (s.cellReadable 0#30 = true → exec .dup s = stop) ∧
    (s.cellReadable 1#30 = true → exec .dupstackb s = stop) ∧
    exec .pushsp s = stop ∧
    (s.cfg.builds 59 = true → exec .pushpc s = stop) ∧
    (∀ x : BitVec 5, exec (.emulate x) s = stop) ∧
    ∀ op : Byte, isOptionalOpcode op = true → s.cfg.builds op.toNat = false → exec (decode op) s = stop

/-- R47: with the default map every data address at or above `2^L` is outside it and is not aliased onto low memory: each
of the six data instructions, at an address aligned for it (R45), stops there (the fault `unmapped`, log entry 15). -/
def Obligations.DataAddressBeyondTheMapStops : Prop :=
  ∀ s : State, s.wf = true → s.cfg.memMap = defaultMemMap s.cfg.addrBits → 2 ^ s.cfg.addrBits ≤ (s.cell 0#30).toNat →
    ((s.cell 0#30).toNat % 4 = 0 → exec .load s = .fault .unmapped ∧ exec .store s = .fault .unmapped) ∧
    ((s.cell 0#30).toNat % 2 = 0 →
      (s.cfg.builds 34 = true → exec .loadh s = .fault .unmapped) ∧
      (s.cfg.builds 35 = true → exec .storeh s = .fault .unmapped)) ∧
    (s.cfg.builds 51 = true → exec .loadb s = .fault .unmapped) ∧
    (s.cfg.builds 52 = true → exec .storeb s = .fault .unmapped)

/-- R47, last sentence: a LOAD or STORE of an aligned word that some device of MEM_MAP answers is given no meaning (the
refusal `deviceWindow` is the model's form of it, log entry 5). -/
def Obligations.DeviceDataAddressIsRefused : Prop :=
  ∀ s : State, s.cellReadable 0#30 = true → (s.cell 0#30).toNat % 4 = 0 → s.plain (s.cell 0#30).toNat 4 = false →
    s.mapped (s.cell 0#30).toNat 4 = true →
    (s.hitsCachedCells (s.cell 0#30).toNat 4 = false → exec .load s = .refused .deviceWindow) ∧
    (s.cellReadable 1#30 = true → exec .store s = .refused .deviceWindow)

/-- R242, last sentence: with the default MEM_MAP no fetch and no stack access is ever outside it. -/
def Obligations.DefaultMapHoldsEveryFetchAndStackCell : Prop :=
  ∀ s : State, s.wf = true → s.cfg.memMap = defaultMemMap s.cfg.addrBits →
    s.plain s.pc.toNat 1 = true ∧ ∀ k : CellIndex, s.cellReadable k = true

/-- R242, R243: with the default MEM_MAP every instruction but the four unavailable ones and the six data instructions
goes on from every well-formed state, unless it would store into the word being executed: nothing else stops one. -/
def Obligations.StackInstructionsCompleteOnTheDefaultMap : Prop :=
  ∀ (i : Instr) (s : State), s.wf = true → s.cfg.memMap = defaultMemMap s.cfg.addrBits →
    i ∉ [Instr.shiftlleft, .popint, .compare, .sncpy, .load, .store, .loadb, .loadh, .storeb, .storeh] →
    s.hitsExecutingWord (footprint i s).1 (footprint i s).2 = false → ∃ t : State, exec i s = .next t

/-! ### Memory -/

/-- R42, and R201's corner case for a half: a 32-bit or 16-bit read is its bytes put together, the byte at the lowest
address the most significant with the big order and the least significant with the little one; in canonical memory a
write puts every byte of the value at the address the same order gives it, and so is read back whole. -/
def Obligations.WordsReadBackInEitherByteOrder : Prop :=
  ∀ (m : Memory) (a : Nat) (v : Word) (h : BitVec 16),
    (m.readWord .big a = m.read a ++ m.read (a + 1) ++ m.read (a + 2) ++ m.read (a + 3) ∧
      m.readWord .little a = m.read (a + 3) ++ m.read (a + 2) ++ m.read (a + 1) ++ m.read a ∧
      m.readHalf .big a = m.read a ++ m.read (a + 1) ∧ m.readHalf .little a = m.read (a + 1) ++ m.read a) ∧
    (m.wf = true →
      (∀ o : ByteOrder, (m.writeWord o a v).readWord o a = v ∧ (m.writeList a (halfBytes o h)).readHalf o a = h) ∧
      ((m.writeWord .big a v).read a = v.extractLsb' 24 8 ∧ (m.writeWord .big a v).read (a + 1) = v.extractLsb' 16 8 ∧
        (m.writeWord .big a v).read (a + 2) = v.extractLsb' 8 8 ∧
        (m.writeWord .big a v).read (a + 3) = v.extractLsb' 0 8) ∧
      ((m.writeWord .little a v).read a = v.extractLsb' 0 8 ∧
        (m.writeWord .little a v).read (a + 1) = v.extractLsb' 8 8 ∧
        (m.writeWord .little a v).read (a + 2) = v.extractLsb' 16 8 ∧
        (m.writeWord .little a v).read (a + 3) = v.extractLsb' 24 8) ∧
      ((m.writeList a (halfBytes .big h)).read a = h.extractLsb' 8 8 ∧
        (m.writeList a (halfBytes .big h)).read (a + 1) = h.extractLsb' 0 8) ∧
      (m.writeList a (halfBytes .little h)).read a = h.extractLsb' 0 8 ∧
      (m.writeList a (halfBytes .little h)).read (a + 1) = h.extractLsb' 8 8)

/-- R11, R22: the cell an instruction writes is found there afterwards, through the new stack pointer, and every other
cell is found with the value it had: no two cells overlap. -/
def Obligations.WritingACellChangesThatCellOnly : Prop :=
  ∀ (s : State) (k d j : CellIndex) (v p : Word), s.wf = true →
    (s.landing p (s.spPlus d) (s.memWithCell k v)).cell j =
      if s.spPlus (d + j) = s.spPlus k then v else s.cell (d + j)

/-! ### Two instructions together -/

/-- R134, R248: POPPC right after an emulation call or a CALL returns to the byte after it, with `sp` as it was before
an emulation call and one cell above it after a CALL, whose target cell is gone. -/
def Obligations.PoppcReturnsFromCalls : Prop :=
  ∀ s t : State, s.wf = true →
    (∀ x, exec (.emulate x) s = .next t →
      ∃ u, exec .poppc t = .next u ∧ u.pc = s.nextPc ∧ u.sp = s.sp) ∧
    (s.cfg.builds 45 = true → exec .call s = .next t →
      ∃ u, exec .poppc t = .next u ∧ u.pc = s.nextPc ∧ u.sp = s.spPlus 1#30)

/-- R143, corner case: `PUSHSP ; POPSP` leaves `sp` as it was, and every byte but those of the dead cell below the
top. -/
def Obligations.PushspThenPopspRestoresSp : Prop :=
  ∀ s t : State, s.wf = true → exec .pushsp s = .next t →
    ∃ u, exec .popsp t = .next u ∧ u.sp = s.sp ∧
      (∀ a, outside a (s.sa (-1#30)) 4 → u.mem.read a = s.mem.read a) ∧
      u.mem.readWord s.cfg.byteOrder (s.sa (-1#30)) = s.spb

/-- R53: a STORE into a cell of the stack above its own two operands changes what is found there after the pops: the
cell `Stk[k + 2]` of before is `Stk[k]` of after. -/
def Obligations.StoreIntoTheStackIsSeenAfterThePops : Prop :=
  ∀ (s t : State) (k : CellIndex), s.wf = true → (s.cell 0#30).toNat = s.sa (k + 2#30) → exec .store s = .next t →
    t.cell k = s.cell 1#30
end

