-- ==== Sys2Proof/Laws/Memory.lean ====
section
/-! SUPPORT. The laws of memory as a list of cells: a read after a write, and the canonical form under every
operation. -/

namespace Sys2Proof.Machine

/-! ### Reading after writing -/

@[simp] theorem read_nil (a : Nat) : Memory.read [] a = unlistedByte := rfl

theorem read_cons (k : Nat) (v : Byte) (m : Memory) (a : Nat) :
    Memory.read ((k, v) :: m) a = if k = a then v else Memory.read m a := rfl

/-- A write leaves every other address alone, whatever the list. -/
theorem read_write_of_ne (m : Memory) {a b : Nat} (v : Byte) (h : b ≠ a) : (m.write a v).read b = m.read b := by
  induction m with
  | nil =>
    unfold Memory.write
    split <;> simp [read_cons, h.symm]
  | cons c rest ih =>
    obtain ⟨k, w⟩ := c
    simp only [Memory.write]
    split
    · split
      · rfl
      · rw [read_cons, if_neg (fun e => h e.symm)]
    · split
      · rename_i heq
        have hk : ¬ k = b := fun e => h (heq ▸ e.symm)
        split <;> simp [read_cons, hk, h.symm]
      · simp [read_cons, ih]

theorem wfFrom_read_below {lo : Nat} {m : Memory} (h : Memory.wfFrom lo m = true) {a : Nat} (ha : a < lo) :
    m.read a = unlistedByte := by
  induction m generalizing lo with
  | nil => rfl
  | cons c rest ih =>
    obtain ⟨k, w⟩ := c
    simp only [Memory.wfFrom, Bool.and_eq_true, decide_eq_true_eq] at h
    rw [read_cons, if_neg (by omega), ih h.2 (by omega)]

/-- In canonical memory a read after a write gives the byte written. -/
theorem read_write_same {lo : Nat} {m : Memory} (h : Memory.wfFrom lo m = true) (a : Nat) (v : Byte) :
    (m.write a v).read a = v := by
  induction m generalizing lo with
  | nil =>
    unfold Memory.write
    split <;> simp_all [read_cons]
  | cons c rest ih =>
    obtain ⟨k, w⟩ := c
    simp only [Memory.wfFrom, Bool.and_eq_true, decide_eq_true_eq] at h
    simp only [Memory.write]
    split
    · rename_i hlt
      split
      · rename_i hv
        rw [read_cons, if_neg (by omega), wfFrom_read_below h.2 (by omega), hv]
      · simp [read_cons]
    · split
      · rename_i heq
        split
        · rename_i hv
          rw [wfFrom_read_below h.2 (by omega), hv]
        · simp [read_cons]
      · rename_i hne
        rw [read_cons, if_neg (fun h => hne h.symm), ih h.2]

/-! ### The canonical form -/

theorem wfFrom_mono {lo lo' : Nat} {m : Memory} (h : Memory.wfFrom lo m = true) (hle : lo' ≤ lo) :
    Memory.wfFrom lo' m = true := by
  cases m with
  | nil => rfl
  | cons c rest =>
    obtain ⟨k, w⟩ := c
    simp only [Memory.wfFrom, Bool.and_eq_true, decide_eq_true_eq] at h ⊢
    exact ⟨⟨by omega, h.1.2⟩, h.2⟩

theorem wfFrom_write {lo : Nat} {m : Memory} (h : Memory.wfFrom lo m = true) {a : Nat} (ha : lo ≤ a) (v : Byte) :
    Memory.wfFrom lo (m.write a v) = true := by
  induction m generalizing lo with
  | nil =>
    unfold Memory.write
    split <;> simp_all [Memory.wfFrom]
  | cons c rest ih =>
    obtain ⟨k, w⟩ := c
    have h' := h
    simp only [Memory.wfFrom, Bool.and_eq_true, decide_eq_true_eq] at h
    simp only [Memory.write]
    split
    · split
      · exact h'
      · simp_all [Memory.wfFrom]
    · split
      · split
        · exact wfFrom_mono h.2 (by omega)
        · simp_all [Memory.wfFrom]
      · simp only [Memory.wfFrom, Bool.and_eq_true, decide_eq_true_eq]
        exact ⟨h.1, ih h.2 (by omega)⟩

/-- A write of one byte keeps the canonical form. -/
theorem wf_write {m : Memory} (h : m.wf = true) (a : Nat) (v : Byte) : (m.write a v).wf = true :=
  wfFrom_write h (Nat.zero_le a) v

/-- A write of consecutive bytes keeps the canonical form. -/
theorem wf_writeList {m : Memory} (h : m.wf = true) (a : Nat) (bytes : List Byte) : (m.writeList a bytes).wf = true := by
  induction bytes generalizing m a with
  | nil => exact h
  | cons b rest ih => exact ih (wf_write h a b) (a + 1)

/-- The canonical form of reset memory: nothing listed. -/
theorem wf_nil : Memory.wf [] = true := rfl

/-! ### Consecutive bytes -/

/-- A write of consecutive bytes leaves every byte outside them alone. -/
theorem read_writeList_outside (m : Memory) (a : Nat) (bytes : List Byte) {b : Nat}
    (h : outside b a bytes.length) : (m.writeList a bytes).read b = m.read b := by
  induction bytes generalizing m a with
  | nil => rfl
  | cons v rest ih =>
    simp only [outside, List.length_cons] at h
    rw [Memory.writeList, ih _ _ (by unfold outside; omega), read_write_of_ne _ _ (by omega)]

/-- In canonical memory the bytes written are read back, each at its place. -/
theorem read_writeList_inside {m : Memory} (h : m.wf = true) (a : Nat) (bytes : List Byte) {i : Nat}
    (hi : i < bytes.length) : (m.writeList a bytes).read (a + i) = bytes[i] := by
  induction bytes generalizing m a i with
  | nil => simp at hi
  | cons v rest ih =>
    cases i with
    | zero =>
      rw [Memory.writeList, read_writeList_outside _ _ _ (by unfold outside; omega)]
      exact read_write_same h a v
    | succ i =>
      have := ih (wf_write h a v) (a + 1) (i := i) (by simpa using hi)
      rw [Memory.writeList, show a + (i + 1) = a + 1 + i by omega, this]
      rfl

@[simp] theorem wordBytes_length (o : ByteOrder) (v : Word) : (wordBytes o v).length = 4 := by cases o <;> rfl
@[simp] theorem halfBytes_length (o : ByteOrder) (v : BitVec 16) : (halfBytes o v).length = 2 := by cases o <;> rfl
@[simp] theorem dataBytes_length (o : ByteOrder) (w : Width) (v : Word) : (dataBytes o w v).length = bytesIn w := by
  cases w <;> simp [dataBytes, bytesIn]

/-- The four bytes of a word, put together again. -/
theorem append_bytes_of_word (v : Word) :
    v.extractLsb' 24 8 ++ v.extractLsb' 16 8 ++ v.extractLsb' 8 8 ++ v.extractLsb' 0 8 = v := by
  apply BitVec.eq_of_getLsbD_eq
  intro i hi
  simp only [BitVec.getLsbD_append, BitVec.getLsbD_extractLsb']
  split
  · simp [show i < 8 by omega]
  · split
    · simp only [show i - 8 < 8 by omega, decide_true, Bool.true_and]
      congr 1
      omega
    · split
      · simp only [show i - 8 - 8 < 8 by omega, decide_true, Bool.true_and]
        congr 1
        omega
      · simp only [show i - 8 - 8 - 8 < 8 by omega, decide_true, Bool.true_and]
        congr 1
        omega

/-- In canonical memory a word read after a word written at the same address is that word, in either byte order. -/
theorem readWord_writeWord {m : Memory} (h : m.wf = true) (o : ByteOrder) (a : Nat) (v : Word) :
    (m.writeWord o a v).readWord o a = v := by
  have r (i : Nat) (hi : i < 4) :=
    read_writeList_inside h a (wordBytes o v) (i := i) (by simpa using hi)
  have r0 := r 0 (by omega)
  have r1 := r 1 (by omega)
  have r2 := r 2 (by omega)
  have r3 := r 3 (by omega)
  unfold Memory.readWord Memory.writeWord
  cases o <;> simp only [wordBytes, Nat.add_zero] at r0 r1 r2 r3 ⊢ <;> rw [r0, r1, r2, r3] <;>
    exact append_bytes_of_word v

/-- The two bytes of a half, put together again. -/
theorem append_bytes_of_half (v : BitVec 16) : v.extractLsb' 8 8 ++ v.extractLsb' 0 8 = v := by
  apply BitVec.eq_of_getLsbD_eq
  intro i hi
  simp only [BitVec.getLsbD_append, BitVec.getLsbD_extractLsb']
  split
  · simp [show i < 8 by omega]
  · simp only [show i - 8 < 8 by omega, decide_true, Bool.true_and]
    congr 1
    omega

/-- Every byte listed after a write was listed before or was written. -/
theorem mem_write_cells {m : Memory} {a : Nat} {v : Byte} {c : Host.Cell} (h : c ∈ m.write a v) :
    c ∈ m ∨ c.1 = a := by
  induction m with
  | nil =>
    unfold Memory.write at h
    split at h <;> simp_all
  | cons d rest ih =>
    obtain ⟨k, w⟩ := d
    simp only [Memory.write] at h
    split at h
    · split at h
      · exact .inl h
      · rcases List.mem_cons.mp h with rfl | h
        · exact .inr rfl
        · exact .inl h
    · split at h
      · split at h
        · exact .inl (List.mem_cons_of_mem _ h)
        · rcases List.mem_cons.mp h with rfl | h
          · exact .inr rfl
          · exact .inl (List.mem_cons_of_mem _ h)
      · rcases List.mem_cons.mp h with rfl | h
        · exact .inl (List.mem_cons_self ..)
        · exact (ih h).imp (List.mem_cons_of_mem _) id

/-- Every byte listed after a write of consecutive bytes was listed before or lies among them. -/
theorem mem_writeList_cells {m : Memory} {a : Nat} {bytes : List Byte} {c : Host.Cell} (h : c ∈ m.writeList a bytes) :
    c ∈ m ∨ (a ≤ c.1 ∧ c.1 < a + bytes.length) := by
  induction bytes generalizing m a with
  | nil => exact .inl h
  | cons b rest ih =>
    rcases ih h with h | h
    · rcases mem_write_cells h with h | h
      · exact .inl h
      · exact .inr ⟨by omega, by simp; omega⟩
    · exact .inr ⟨by omega, by simp; omega⟩

end Sys2Proof.Machine
end

