-- ==== Sys2Proof/Laws/State.lean ====
section
/-! SUPPORT. One lemma per field per update of the state, each true by rfl, so that no later proof unfolds a record
update; and what the derived views of a state (its address map, its executing word, its cells) see of each update. -/

namespace Sys2Proof.Machine

/-! ### moveSp -/

@[simp] theorem moveSp_cfg (s : State) (k : CellIndex) : (s.moveSp k).cfg = s.cfg := rfl
@[simp] theorem moveSp_pc (s : State) (k : CellIndex) : (s.moveSp k).pc = s.pc := rfl
@[simp] theorem moveSp_sp (s : State) (k : CellIndex) : (s.moveSp k).sp = wrapSp s.cfg (s.sp + k) := rfl
@[simp] theorem moveSp_idim (s : State) (k : CellIndex) : (s.moveSp k).idim = s.idim := rfl
@[simp] theorem moveSp_breakLine (s : State) (k : CellIndex) : (s.moveSp k).breakLine = s.breakLine := rfl
@[simp] theorem moveSp_breakEvents (s : State) (k : CellIndex) : (s.moveSp k).breakEvents = s.breakEvents := rfl
@[simp] theorem moveSp_runEnded (s : State) (k : CellIndex) : (s.moveSp k).runEnded = s.runEnded := rfl
@[simp] theorem moveSp_freeDraws (s : State) (k : CellIndex) : (s.moveSp k).freeDraws = s.freeDraws := rfl
@[simp] theorem moveSp_mem (s : State) (k : CellIndex) : (s.moveSp k).mem = s.mem := rfl

/-! ### retire -/

@[simp] theorem retire_cfg (s : State) (p : Word) (d : Bool) : (s.retire p d).cfg = s.cfg := rfl
@[simp] theorem retire_pc (s : State) (p : Word) (d : Bool) : (s.retire p d).pc = p := rfl
@[simp] theorem retire_sp (s : State) (p : Word) (d : Bool) : (s.retire p d).sp = s.sp := rfl
@[simp] theorem retire_idim (s : State) (p : Word) (d : Bool) : (s.retire p d).idim = d := rfl
@[simp] theorem retire_breakLine (s : State) (p : Word) (d : Bool) : (s.retire p d).breakLine = false := rfl
@[simp] theorem retire_breakEvents (s : State) (p : Word) (d : Bool) : (s.retire p d).breakEvents = s.breakEvents := rfl
@[simp] theorem retire_runEnded (s : State) (p : Word) (d : Bool) : (s.retire p d).runEnded = s.runEnded := rfl
@[simp] theorem retire_freeDraws (s : State) (p : Word) (d : Bool) : (s.retire p d).freeDraws = s.freeDraws := rfl
@[simp] theorem retire_mem (s : State) (p : Word) (d : Bool) : (s.retire p d).mem = s.mem := rfl

/-! ### landing -/

@[simp] theorem landing_cfg (s : State) (p : Word) (q : CellIndex) (m : Memory) : (s.landing p q m).cfg = s.cfg := rfl
@[simp] theorem landing_pc (s : State) (p : Word) (q : CellIndex) (m : Memory) : (s.landing p q m).pc = p := rfl
@[simp] theorem landing_sp (s : State) (p : Word) (q : CellIndex) (m : Memory) : (s.landing p q m).sp = q := rfl
@[simp] theorem landing_idim (s : State) (p : Word) (q : CellIndex) (m : Memory) : (s.landing p q m).idim = false := rfl
@[simp] theorem landing_breakLine (s : State) (p : Word) (q : CellIndex) (m : Memory) : (s.landing p q m).breakLine = false := rfl
@[simp] theorem landing_breakEvents (s : State) (p : Word) (q : CellIndex) (m : Memory) : (s.landing p q m).breakEvents = s.breakEvents := rfl
@[simp] theorem landing_runEnded (s : State) (p : Word) (q : CellIndex) (m : Memory) : (s.landing p q m).runEnded = s.runEnded := rfl
@[simp] theorem landing_freeDraws (s : State) (p : Word) (q : CellIndex) (m : Memory) : (s.landing p q m).freeDraws = s.freeDraws := rfl
@[simp] theorem landing_mem (s : State) (p : Word) (q : CellIndex) (m : Memory) : (s.landing p q m).mem = m := rfl

/-! ### withFetchWord -/

@[simp] theorem withFetchWord_cfg (s : State) (n w : Nat) : (s.withFetchWord n w).cfg = s.cfg := rfl
@[simp] theorem withFetchWord_pc (s : State) (n w : Nat) : (s.withFetchWord n w).pc = s.pc := rfl
@[simp] theorem withFetchWord_sp (s : State) (n w : Nat) : (s.withFetchWord n w).sp = s.sp := rfl
@[simp] theorem withFetchWord_idim (s : State) (n w : Nat) : (s.withFetchWord n w).idim = s.idim := rfl
@[simp] theorem withFetchWord_breakLine (s : State) (n w : Nat) : (s.withFetchWord n w).breakLine = s.breakLine := rfl
@[simp] theorem withFetchWord_breakEvents (s : State) (n w : Nat) : (s.withFetchWord n w).breakEvents = s.breakEvents := rfl
@[simp] theorem withFetchWord_runEnded (s : State) (n w : Nat) : (s.withFetchWord n w).runEnded = false := rfl
@[simp] theorem withFetchWord_freeDraws (s : State) (n w : Nat) : (s.withFetchWord n w).freeDraws = s.freeDraws := rfl
@[simp] theorem withFetchWord_mem (s : State) (n w : Nat) : (s.withFetchWord n w).mem = s.mem.write s.pc.toNat (BitVec.ofNat 8 w) := rfl

/-! ### settle -/

@[simp] theorem settle_cfg (s : State) (r : Option Word) : (s.settle r).2.cfg = s.cfg := by cases r <;> rfl
@[simp] theorem settle_pc (s : State) (r : Option Word) : (s.settle r).2.pc = s.pc := by cases r <;> rfl
@[simp] theorem settle_sp (s : State) (r : Option Word) : (s.settle r).2.sp = s.sp := by cases r <;> rfl
@[simp] theorem settle_idim (s : State) (r : Option Word) : (s.settle r).2.idim = s.idim := by cases r <;> rfl
@[simp] theorem settle_breakLine (s : State) (r : Option Word) : (s.settle r).2.breakLine = s.breakLine := by cases r <;> rfl
@[simp] theorem settle_breakEvents (s : State) (r : Option Word) : (s.settle r).2.breakEvents = s.breakEvents := by cases r <;> rfl
@[simp] theorem settle_runEnded (s : State) (r : Option Word) : (s.settle r).2.runEnded = s.runEnded := by cases r <;> rfl
@[simp] theorem settle_some (s : State) (v : Word) : s.settle (some v) = (v, s) := rfl
@[simp] theorem settle_none_value (s : State) : (s.settle none).1 = any32 s.freeDraws := rfl
@[simp] theorem settle_none_freeDraws (s : State) : (s.settle none).2.freeDraws = s.freeDraws + 1 := rfl
@[simp] theorem settle_mem (s : State) (r : Option Word) : (s.settle r).2.mem = s.mem := by cases r <;> rfl

/-! ### resetWith -/

@[simp] theorem resetWith_cfg (c : Config) (p : Word) (q : CellIndex) (m : Memory) :
    (State.resetWith c p q m).cfg = c := rfl
@[simp] theorem resetWith_pc (c : Config) (p : Word) (q : CellIndex) (m : Memory) :
    (State.resetWith c p q m).pc = p := rfl
@[simp] theorem resetWith_sp (c : Config) (p : Word) (q : CellIndex) (m : Memory) :
    (State.resetWith c p q m).sp = q := rfl
@[simp] theorem resetWith_idim (c : Config) (p : Word) (q : CellIndex) (m : Memory) :
    (State.resetWith c p q m).idim = false := rfl
@[simp] theorem resetWith_breakLine (c : Config) (p : Word) (q : CellIndex) (m : Memory) :
    (State.resetWith c p q m).breakLine = false := rfl
@[simp] theorem resetWith_breakEvents (c : Config) (p : Word) (q : CellIndex) (m : Memory) :
    (State.resetWith c p q m).breakEvents = [] := rfl
@[simp] theorem resetWith_runEnded (c : Config) (p : Word) (q : CellIndex) (m : Memory) :
    (State.resetWith c p q m).runEnded = false := rfl
@[simp] theorem resetWith_freeDraws (c : Config) (p : Word) (q : CellIndex) (m : Memory) :
    (State.resetWith c p q m).freeDraws = 0 := rfl
@[simp] theorem resetWith_mem (c : Config) (p : Word) (q : CellIndex) (m : Memory) :
    (State.resetWith c p q m).mem = m := rfl

/-! ### What the derived views see -/

@[simp] theorem plain_moveSp (s : State) (k : CellIndex) (a n : Nat) : (s.moveSp k).plain a n = s.plain a n := rfl
@[simp] theorem plain_retire (s : State) (p : Word) (d : Bool) (a n : Nat) :
    (s.retire p d).plain a n = s.plain a n := rfl
@[simp] theorem plain_landing (s : State) (p : Word) (q : CellIndex) (m : Memory) (a n : Nat) :
    (s.landing p q m).plain a n = s.plain a n := rfl
@[simp] theorem plain_mem (s : State) (m : Memory) (a n : Nat) :
    ({ s with mem := m } : State).plain a n = s.plain a n := rfl
@[simp] theorem plain_settle (s : State) (r : Option Word) (a n : Nat) : (s.settle r).2.plain a n = s.plain a n := by
  cases r <;> rfl
@[simp] theorem writable_moveSp (s : State) (k : CellIndex) (a n : Nat) :
    (s.moveSp k).writable a n = s.writable a n := rfl
@[simp] theorem writable_mem (s : State) (m : Memory) (a n : Nat) :
    ({ s with mem := m } : State).writable a n = s.writable a n := rfl
@[simp] theorem writable_settle (s : State) (r : Option Word) (a n : Nat) :
    (s.settle r).2.writable a n = s.writable a n := by
  cases r <;> rfl
@[simp] theorem nextPc_moveSp (s : State) (k : CellIndex) : (s.moveSp k).nextPc = s.nextPc := rfl
@[simp] theorem nextPc_mem (s : State) (m : Memory) : ({ s with mem := m } : State).nextPc = s.nextPc := rfl
@[simp] theorem nextPc_sp (s : State) (q : CellIndex) : ({ s with sp := q } : State).nextPc = s.nextPc := rfl
@[simp] theorem nextPc_settle (s : State) (r : Option Word) : (s.settle r).2.nextPc = s.nextPc := by
  cases r <;> rfl
@[simp] theorem sa_mem (s : State) (m : Memory) (k : CellIndex) : ({ s with mem := m } : State).sa k = s.sa k := rfl
@[simp] theorem sa_settle (s : State) (r : Option Word) (k : CellIndex) : (s.settle r).2.sa k = s.sa k := by
  cases r <;> rfl

end Sys2Proof.Machine
end

