-- ==== Sys2Proof/Laws/Ops.lean ====
section
/-! SUPPORT. For each shared operation, one lemma that says once everything it can do: it answers a next value exactly
when …, and that value is …. Later proofs cite these and unfold no operation. -/

namespace Sys2Proof.Machine

/-! ### Outcomes -/

@[simp] theorem bind_next {α β : Type} (a : α) (f : α → Res β) : Res.bind (.next a) f = f a := rfl
@[simp] theorem bind_fault {α β : Type} (e : Fault) (f : α → Res β) : Res.bind (.fault e) f = .fault e := rfl
@[simp] theorem bind_refused {α β : Type} (e : Refusal) (f : α → Res β) : Res.bind (.refused e) f = .refused e := rfl

theorem bind_eq_next {α β : Type} {r : Res α} {f : α → Res β} {b : β} :
    Res.bind r f = .next b ↔ ∃ a, r = .next a ∧ f a = .next b := by
  cases r <;> simp

theorem bind_assoc {α β γ : Type} (r : Res α) (f : α → Res β) (g : β → Res γ) :
    (r.bind f).bind g = r.bind fun a => (f a).bind g := by
  cases r <;> rfl

theorem require_eq_next {ok : Bool} {why : Refusal} {u : Unit} : require ok why = .next u ↔ ok = true := by
  cases ok <;> simp [require]

@[simp] theorem require_true (why : Refusal) : require true why = .next () := rfl
@[simp] theorem require_false (why : Refusal) : require false why = .refused why := rfl

/-! ### Memory accesses -/

theorem access_eq_next {s : State} {a n : Nat} {u : Unit} : s.access a n = .next u ↔ s.plain a n = true := by
  unfold State.access
  split
  · simp [*]
  · split <;> simp_all

theorem access_of_plain {s : State} {a n : Nat} (h : s.plain a n = true) : s.access a n = .next () :=
  access_eq_next.mpr h

/-- Plain memory is mapped. -/
theorem mapped_of_plain {s : State} {a n : Nat} (h : s.plain a n = true) : s.mapped a n = true := by
  simp only [State.plain, State.mapped, List.all_eq_true, beq_iff_eq] at *
  intro i hi
  rw [h i hi]
  rfl

theorem access_of_unmapped {s : State} {a n : Nat} (h : s.mapped a n = false) :
    s.access a n = .fault .unmapped := by
  have hp : s.plain a n ≠ true := fun e => by simp [mapped_of_plain e] at h
  simp [State.access, hp, h]

theorem access_of_device {s : State} {a n : Nat} (hp : s.plain a n = false) (hm : s.mapped a n = true) :
    s.access a n = .refused .deviceWindow := by
  simp [State.access, hp, hm]

/-- Each byte of a plain access is in a plain region. -/
theorem regionAt_of_plain {s : State} {a n i : Nat} (h : s.plain a n = true) (hi : i < n) :
    regionAt s.cfg.memMap (a + i) = some .plain := by
  simp only [State.plain, List.all_eq_true, List.mem_range, beq_iff_eq] at h
  exact h i hi

theorem readWord_eq_next {s : State} {a : Nat} {v : Word} :
    s.readWord a = .next v ↔ s.plain a 4 = true ∧ v = s.mem.readWord s.cfg.byteOrder a := by
  simp only [State.readWord, bind_eq_next, access_eq_next, exists_const, Host.Outcome.next.injEq]
  exact and_congr_right fun _ => eq_comm

theorem readStk_eq_next {s : State} {k : CellIndex} {v : Word} :
    s.readStk k = .next v ↔ s.cellReadable k = true ∧ v = s.cell k := readWord_eq_next

theorem readStk_of_readable {s : State} {k : CellIndex} (h : s.cellReadable k = true) :
    s.readStk k = .next (s.cell k) := readStk_eq_next.mpr ⟨h, rfl⟩

theorem writable_iff {s : State} {a n : Nat} :
    s.writable a n = true ↔ s.plain a n = true ∧ s.hitsExecutingWord a n = false := by
  simp [State.writable]

theorem writeBytes_eq_next {s t : State} {a : Nat} {bytes : List Byte} :
    s.writeBytes a bytes = .next t ↔
      s.writable a bytes.length = true ∧ t = { s with mem := s.mem.writeList a bytes } := by
  simp only [State.writeBytes, bind_eq_next, access_eq_next, require_eq_next, writable_iff, exists_const,
    Bool.not_eq_true', Host.Outcome.next.injEq, and_assoc]
  exact and_congr_right fun _ => and_congr_right fun _ => eq_comm

theorem writeBytes_of_writable {s : State} {a : Nat} {bytes : List Byte} (h : s.writable a bytes.length = true) :
    s.writeBytes a bytes = .next { s with mem := s.mem.writeList a bytes } := writeBytes_eq_next.mpr ⟨h, rfl⟩

theorem writeStk_eq_next {s t : State} {k : CellIndex} {v : Word} :
    s.writeStk k v = .next t ↔ s.cellWritable k = true ∧ t = { s with mem := s.memWithCell k v } := by
  simp only [State.writeStk, writeBytes_eq_next, wordBytes_length]
  rfl

theorem writeStk_of_writable {s : State} {k : CellIndex} {v : Word} (h : s.cellWritable k = true) :
    s.writeStk k v = .next { s with mem := s.memWithCell k v } := writeStk_eq_next.mpr ⟨h, rfl⟩

/-! ### The widths of pc and sp -/

theorem setWidth_setWidth_add {w n : Nat} (x y : BitVec w) :
    (((x.setWidth n).setWidth w) + y).setWidth n = (x + y).setWidth n := by
  by_cases h : n ≤ w
  · rw [BitVec.setWidth_add _ _ h, BitVec.setWidth_add _ _ h]
    congr 1
    apply BitVec.eq_of_getLsbD_eq
    intro i hi
    simp only [BitVec.getLsbD_setWidth, hi, decide_true, Bool.true_and]
    simp [show i < w by omega]
  · rw [show (x.setWidth n).setWidth w = x from by
      apply BitVec.eq_of_getLsbD_eq
      intro i hi
      simp [hi, show i < n by omega]]

/-- Moving a wrapped cell index moves the index. -/
@[simp] theorem wrapSp_wrapSp_add (c : Config) (x y : CellIndex) : wrapSp c (wrapSp c x + y) = wrapSp c (x + y) := by
  unfold wrapSp
  rw [setWidth_setWidth_add]

@[simp] theorem wrapPc_wrapPc (c : Config) (v : Word) : wrapPc c (wrapPc c v) = wrapPc c v := by
  have h := setWidth_setWidth_add (n := c.addrBits) v 0#32
  simp only [BitVec.add_zero] at h
  unfold wrapPc
  rw [h]

/-- Moving a wrapped program counter moves the counter. -/
@[simp] theorem wrapPc_wrapPc_add (c : Config) (x y : Word) : wrapPc c (wrapPc c x + y) = wrapPc c (x + y) := by
  unfold wrapPc
  rw [setWidth_setWidth_add]

/-- A program counter of `L` bits is its own wrap. -/
theorem wrapPc_of_lt {c : Config} (h : c.addrBits ≤ 32) {v : Word} (hv : v.toNat < 2 ^ c.addrBits) :
    wrapPc c v = v := by
  apply BitVec.eq_of_toNat_eq
  unfold wrapPc
  rw [BitVec.toNat_setWidth_of_le h, BitVec.toNat_setWidth, Nat.mod_eq_of_lt hv]

/-- A stack pointer of `L - 2` bits is its own wrap. -/
theorem wrapSp_of_lt {c : Config} (h : c.addrBits - 2 ≤ 30) {v : CellIndex} (hv : v.toNat < 2 ^ (c.addrBits - 2)) :
    wrapSp c v = v := by
  apply BitVec.eq_of_toNat_eq
  unfold wrapSp
  rw [BitVec.toNat_setWidth_of_le h, BitVec.toNat_setWidth, Nat.mod_eq_of_lt hv]

theorem sa_moveSp (s : State) (k j : CellIndex) : (s.moveSp k).sa j = s.sa (k + j) := by
  simp only [State.sa, moveSp_cfg, moveSp_sp, wrapSp_wrapSp_add, BitVec.add_assoc]

@[simp] theorem sa_moveSp_zero (s : State) (k : CellIndex) : (s.moveSp k).sa 0#30 = s.sa k := by
  rw [sa_moveSp, BitVec.add_zero]

@[simp] theorem cellWritable_moveSp_zero (s : State) (k : CellIndex) :
    (s.moveSp k).cellWritable 0#30 = s.cellWritable k := by
  simp [State.cellWritable]

@[simp] theorem memWithCell_moveSp_zero (s : State) (k : CellIndex) (v : Word) :
    (s.moveSp k).memWithCell 0#30 v = s.memWithCell k v := by
  simp [State.memWithCell]

@[simp] theorem moveSp_sp_eq (s : State) (k : CellIndex) : (s.moveSp k).sp = s.spPlus k := rfl

theorem wrapSp_toNat_lt {c : Config} (h : c.addrBits - 2 ≤ 30) (v : CellIndex) :
    (wrapSp c v).toNat < 2 ^ (c.addrBits - 2) := by
  unfold wrapSp
  rw [BitVec.toNat_setWidth_of_le h]
  exact BitVec.isLt _

theorem wrapPc_toNat_lt {c : Config} (h : c.addrBits ≤ 32) (v : Word) : (wrapPc c v).toNat < 2 ^ c.addrBits := by
  unfold wrapPc
  rw [BitVec.toNat_setWidth_of_le h]
  exact BitVec.isLt _

/-! ### Stack operations -/

/-- A push whose cell is the word being executed. -/
theorem push_of_executing {s : State} {v : Word} (hp : s.plain (s.sa (-1#30)) 4 = true)
    (hx : s.hitsExecutingWord (s.sa (-1#30)) 4 = true) : s.push v = .refused .storeIntoExecutingWord := by
  have hp' : (s.moveSp (-1#30)).plain (s.sa (-1#30)) 4 = true := hp
  have hx' : (s.moveSp (-1#30)).hitsExecutingWord (s.sa (-1#30)) 4 = true := hx
  simp only [State.push, State.writeStk, State.writeBytes, sa_moveSp_zero, wordBytes_length, access_of_plain hp', hx',
    bind_next, Bool.not_true, require_false, bind_refused]

/-- A push whose cell is not all in MEM_MAP. -/
theorem push_of_unmapped {s : State} {v : Word} (hm : s.mapped (s.sa (-1#30)) 4 = false) :
    s.push v = .fault .unmapped := by
  have hm' : (s.moveSp (-1#30)).mapped (s.sa (-1#30)) 4 = false := hm
  simp only [State.push, State.writeStk, State.writeBytes, sa_moveSp_zero, wordBytes_length, access_of_unmapped hm',
    bind_fault]

theorem push_eq_next {s t : State} {v : Word} :
    s.push v = .next t ↔ s.pushReady = true ∧
      t = { s with sp := s.spPlus (-1#30), mem := s.memWithCell (-1#30) v } := by
  simp only [State.push, writeStk_eq_next, cellWritable_moveSp_zero, memWithCell_moveSp_zero, State.pushReady]
  rfl

theorem pop_eq_next {s : State} {r : Word × State} :
    s.pop = .next r ↔ s.cellReadable 0#30 = true ∧ r = (s.cell 0#30, s.moveSp 1#30) := by
  simp only [State.pop, bind_eq_next, readStk_eq_next]
  constructor
  · rintro ⟨v, ⟨h, rfl⟩, h'⟩
    exact ⟨h, (Host.Outcome.next.inj h').symm⟩
  · rintro ⟨h, rfl⟩
    exact ⟨_, ⟨h, rfl⟩, rfl⟩

theorem finish_eq (s : State) : s.finish = .next (s.landing s.nextPc s.sp s.mem) := rfl
theorem jump_eq (s : State) (a : Word) : s.jump a = .next (s.landing (wrapPc s.cfg a) s.sp s.mem) := rfl

theorem emulateCall_eq_next {s t : State} {x : BitVec 5} :
    s.emulateCall x = .next t ↔ s.pushReady = true ∧
      t = s.landing (wrapPc s.cfg (x.setWidth 32 <<< 5)) (s.spPlus (-1#30)) (s.memWithCell (-1#30) s.nextPc) := by
  simp only [State.emulateCall, bind_eq_next, push_eq_next, jump_eq]
  constructor
  · rintro ⟨u, ⟨h, rfl⟩, h'⟩
    exact ⟨h, (Host.Outcome.next.inj h').symm⟩
  · rintro ⟨h, rfl⟩
    exact ⟨_, ⟨h, rfl⟩, rfl⟩

theorem returnFromCall_eq_next {s t : State} :
    s.returnFromCall = .next t ↔ s.cellReadable 0#30 = true ∧
      t = s.landing (wrapPc s.cfg (s.cell 0#30)) (s.spPlus 1#30) s.mem := by
  simp only [State.returnFromCall, bind_eq_next, pop_eq_next, jump_eq]
  constructor
  · rintro ⟨u, ⟨h, rfl⟩, h'⟩
    exact ⟨h, (Host.Outcome.next.inj h').symm⟩
  · rintro ⟨h, rfl⟩
    exact ⟨_, ⟨h, rfl⟩, rfl⟩

theorem whereBuilt_of_built {s : State} {op : Nat} {hw : Res State} (h : s.cfg.builds op = true) :
    s.whereBuilt op hw = hw := by
  simp [State.whereBuilt, h]

theorem whereBuilt_of_unbuilt {s : State} {op : Nat} {hw : Res State} (h : s.cfg.builds op = false) :
    s.whereBuilt op hw = s.emulateCall (BitVec.ofNat 5 (op - 32)) := by
  simp [State.whereBuilt, h]

end Sys2Proof.Machine
end

