-- ==== Sys2Proof/Laws/Forms.lean ====
section
/-! SUPPORT. What each operand form can do, said once: it answers a next state exactly when the cells and addresses it
touches can be read and written, and that next state is …. -/

namespace Sys2Proof.Machine

theorem unaryForm_eq_next {f : Word → Word} {s t : State} :
    unaryForm f s = .next t ↔ s.unaryReady = true ∧
      t = s.landing s.nextPc s.sp (s.memWithCell 0#30 (f (s.cell 0#30))) := by
  simp only [unaryForm, bind_eq_next, readStk_eq_next, writeStk_eq_next, finish_eq, State.unaryReady,
    Bool.and_eq_true]
  constructor
  · rintro ⟨a, ⟨h, rfl⟩, u, ⟨h', rfl⟩, ht⟩
    exact ⟨⟨h, h'⟩, (Host.Outcome.next.inj ht).symm⟩
  · rintro ⟨⟨h, h'⟩, rfl⟩
    exact ⟨_, ⟨h, rfl⟩, _, ⟨h', rfl⟩, rfl⟩

theorem binaryForm_eq_next {f : Word → Word → Word} {s t : State} :
    binaryForm f s = .next t ↔ s.binaryReady = true ∧
      t = s.landing s.nextPc (s.spPlus 1#30) (s.memWithCell 1#30 (f (s.cell 0#30) (s.cell 1#30))) := by
  simp only [binaryForm, bind_eq_next, readStk_eq_next, writeStk_eq_next, finish_eq, State.binaryReady,
    Bool.and_eq_true, cellWritable_moveSp_zero, memWithCell_moveSp_zero]
  constructor
  · rintro ⟨a, ⟨h, rfl⟩, b, ⟨h', rfl⟩, u, ⟨h'', rfl⟩, ht⟩
    exact ⟨⟨⟨h, h'⟩, h''⟩, (Host.Outcome.next.inj ht).symm⟩
  · rintro ⟨⟨⟨h, h'⟩, h''⟩, rfl⟩
    exact ⟨_, ⟨h, rfl⟩, _, ⟨h', rfl⟩, _, ⟨h'', rfl⟩, rfl⟩

/-- The state after a result that the spec may leave open: the free value drawn where there is none. -/
theorem binaryOpenForm_eq_next {f : Word → Word → Option Word} {s t : State} :
    binaryOpenForm f s = .next t ↔ s.binaryReady = true ∧
      t = { s.landing s.nextPc (s.spPlus 1#30)
              (s.memWithCell 1#30 (s.settle (f (s.cell 0#30) (s.cell 1#30))).1) with
            freeDraws := (s.settle (f (s.cell 0#30) (s.cell 1#30))).2.freeDraws } := by
  simp only [binaryOpenForm, bind_eq_next, readStk_eq_next, writeStk_eq_next, finish_eq, State.binaryReady,
    Bool.and_eq_true, cellWritable_moveSp_zero, memWithCell_moveSp_zero]
  have hw (r : Option Word) (k : CellIndex) : (s.settle r).2.cellWritable k = s.cellWritable k := by cases r <;> rfl
  have hm (r : Option Word) (k : CellIndex) (v : Word) : (s.settle r).2.memWithCell k v = s.memWithCell k v := by
    cases r <;> rfl
  simp only [hw, hm]
  constructor
  · rintro ⟨a, ⟨h, rfl⟩, b, ⟨h', rfl⟩, u, ⟨h'', rfl⟩, ht⟩
    refine ⟨⟨⟨h, h'⟩, h''⟩, ?_⟩
    rw [← Host.Outcome.next.inj ht]
    cases f (s.cell 0#30) (s.cell 1#30) <;> rfl
  · rintro ⟨⟨⟨h, h'⟩, h''⟩, rfl⟩
    refine ⟨_, ⟨h, rfl⟩, _, ⟨h', rfl⟩, _, ⟨h'', rfl⟩, ?_⟩
    cases f (s.cell 0#30) (s.cell 1#30) <;> rfl

theorem pushForm_eq_next {v : Word} {s t : State} :
    pushForm v s = .next t ↔ s.pushReady = true ∧
      t = s.landing s.nextPc (s.spPlus (-1#30)) (s.memWithCell (-1#30) v) := by
  simp only [pushForm, bind_eq_next, push_eq_next, finish_eq]
  constructor
  · rintro ⟨u, ⟨h, rfl⟩, ht⟩
    exact ⟨h, (Host.Outcome.next.inj ht).symm⟩
  · rintro ⟨h, rfl⟩
    exact ⟨_, ⟨h, rfl⟩, rfl⟩

theorem storeToCell_eq_next {k : CellIndex} {s t : State} :
    storeToCell k s = .next t ↔ (s.cellReadable 0#30 = true ∧ s.cellWritable k = true) ∧
      t = s.landing s.nextPc (s.spPlus 1#30) (s.memWithCell k (s.cell 0#30)) := by
  simp only [storeToCell, bind_eq_next, readStk_eq_next, writeStk_eq_next, finish_eq]
  constructor
  · rintro ⟨a, ⟨h, rfl⟩, u, ⟨h', rfl⟩, ht⟩
    exact ⟨⟨h, h'⟩, (Host.Outcome.next.inj ht).symm⟩
  · rintro ⟨⟨h, h'⟩, rfl⟩
    exact ⟨_, ⟨h, rfl⟩, _, ⟨h', rfl⟩, rfl⟩

theorem loadFromCell_eq_next {k : CellIndex} {s t : State} :
    loadFromCell k s = .next t ↔ (s.cellReadable k = true ∧ s.pushReady = true) ∧
      t = s.landing s.nextPc (s.spPlus (-1#30)) (s.memWithCell (-1#30) (s.cell k)) := by
  simp only [loadFromCell, bind_eq_next, readStk_eq_next, pushForm_eq_next]
  constructor
  · rintro ⟨v, ⟨h, rfl⟩, h', rfl⟩
    exact ⟨⟨h, h'⟩, rfl⟩
  · rintro ⟨⟨h, h'⟩, rfl⟩
    exact ⟨_, ⟨h, rfl⟩, h', rfl⟩

theorem addFromCell_eq_next {k : CellIndex} {s t : State} :
    addFromCell k s = .next t ↔ (s.unaryReady = true ∧ s.cellReadable k = true) ∧
      t = s.landing s.nextPc s.sp (s.memWithCell 0#30 (s.cell 0#30 + s.cell k)) := by
  simp only [addFromCell, bind_eq_next, readStk_eq_next, writeStk_eq_next, finish_eq, State.unaryReady,
    Bool.and_eq_true]
  constructor
  · rintro ⟨a, ⟨h, rfl⟩, v, ⟨h', rfl⟩, u, ⟨h'', rfl⟩, ht⟩
    exact ⟨⟨⟨h, h''⟩, h'⟩, (Host.Outcome.next.inj ht).symm⟩
  · rintro ⟨⟨⟨h, h''⟩, h'⟩, rfl⟩
    exact ⟨_, ⟨h, rfl⟩, _, ⟨h', rfl⟩, _, ⟨h'', rfl⟩, rfl⟩

theorem callForm_eq_next {g : Word → Word} {s t : State} :
    callForm g s = .next t ↔ s.unaryReady = true ∧
      t = s.landing (wrapPc s.cfg (g (s.cell 0#30))) s.sp (s.memWithCell 0#30 s.nextPc) := by
  simp only [callForm, bind_eq_next, readStk_eq_next, writeStk_eq_next, jump_eq, State.unaryReady, Bool.and_eq_true]
  constructor
  · rintro ⟨a, ⟨h, rfl⟩, u, ⟨h', rfl⟩, ht⟩
    exact ⟨⟨h, h'⟩, (Host.Outcome.next.inj ht).symm⟩
  · rintro ⟨⟨h, h'⟩, rfl⟩
    exact ⟨_, ⟨h, rfl⟩, _, ⟨h', rfl⟩, rfl⟩

theorem branchForm_eq_next {taken : Word → Bool} {s t : State} :
    branchForm taken s = .next t ↔ (s.cellReadable 0#30 = true ∧ s.cellReadable 1#30 = true) ∧
      t = s.landing (if taken (s.cell 1#30) then wrapPc s.cfg (s.pc + s.cell 0#30) else s.nextPc) (s.spPlus 2#30)
            s.mem := by
  simp only [branchForm, bind_eq_next, readStk_eq_next]
  constructor
  · rintro ⟨a, ⟨h, rfl⟩, b, ⟨h', rfl⟩, ht⟩
    refine ⟨⟨h, h'⟩, ?_⟩
    split at ht
    · rw [if_pos ‹_›]
      exact (Host.Outcome.next.inj ht).symm
    · rw [if_neg ‹_›]
      exact (Host.Outcome.next.inj ht).symm
  · rintro ⟨⟨h, h'⟩, rfl⟩
    refine ⟨_, ⟨h, rfl⟩, _, ⟨h', rfl⟩, ?_⟩
    split <;> rfl

/-- What LOAD, LOADH and LOADB need of the data address. -/
theorem loadForm_eq_next {w : Width} {s t : State} :
    loadForm w s = .next t ↔
      (s.unaryReady = true ∧ aligned w (s.cell 0#30) = true ∧
        s.hitsCachedCells (s.cell 0#30).toNat (bytesIn w) = false ∧
        s.plain (s.cell 0#30).toNat (bytesIn w) = true) ∧
      t = s.landing s.nextPc s.sp (s.memWithCell 0#30 (s.dataAt w (s.cell 0#30).toNat)) := by
  simp only [loadForm, bind_eq_next, readStk_eq_next, writeStk_eq_next, finish_eq, State.unaryReady,
    Bool.and_eq_true, require_eq_next, access_eq_next, exists_const, Bool.not_eq_true']
  constructor
  · rintro ⟨a, ⟨h, rfl⟩, ha, hc, hp, u, ⟨h', rfl⟩, ht⟩
    exact ⟨⟨⟨h, h'⟩, ha, hc, hp⟩, (Host.Outcome.next.inj ht).symm⟩
  · rintro ⟨⟨⟨h, h'⟩, ha, hc, hp⟩, rfl⟩
    exact ⟨_, ⟨h, rfl⟩, ha, hc, hp, _, ⟨h', rfl⟩, rfl⟩

/-- What STORE, STOREH and STOREB need of the data address. -/
theorem storeForm_eq_next {w : Width} {s t : State} :
    storeForm w s = .next t ↔
      ((s.cellReadable 0#30 = true ∧ s.cellReadable 1#30 = true) ∧ aligned w (s.cell 0#30) = true ∧
        s.writable (s.cell 0#30).toNat (bytesIn w) = true) ∧
      t = s.landing s.nextPc (s.spPlus 2#30)
            (s.mem.writeList (s.cell 0#30).toNat (dataBytes s.cfg.byteOrder w (s.cell 1#30))) := by
  simp only [storeForm, bind_eq_next, readStk_eq_next, writeBytes_eq_next, finish_eq, require_eq_next, exists_const,
    dataBytes_length]
  constructor
  · rintro ⟨a, ⟨h, rfl⟩, b, ⟨h', rfl⟩, ha, u, ⟨hw, rfl⟩, ht⟩
    exact ⟨⟨⟨h, h'⟩, ha, hw⟩, (Host.Outcome.next.inj ht).symm⟩
  · rintro ⟨⟨⟨h, h'⟩, ha, hw⟩, rfl⟩
    exact ⟨_, ⟨h, rfl⟩, _, ⟨h', rfl⟩, ha, _, ⟨hw, rfl⟩, rfl⟩

end Sys2Proof.Machine
end

