-- ==== Sys2Proof/Laws/Exec.lean ====
section
/-! SUPPORT. What any instruction can do when it goes on, said once (`leaves_of_exec_eq_next`): the rules about every
instruction follow from it with no case split over the instructions. -/

namespace Sys2Proof.Machine

/-- The instruction is an IM. -/
def isIm : Instr → Bool
  | .im _ => true
  | _ => false

theorem isIm_iff (i : Instr) : isIm i = true ↔ ∃ x, i = .im x := by cases i <;> simp [isIm]

/-- What an instruction leaves: a wrapped `pc`, the old `sp` or a wrapped one, its footprint's bytes stored where that
is permitted, the two outputs as its kind has them, at most one free value drawn, and everything else as it was. -/
def Leaves (i : Instr) (s t : State) : Prop :=
  ∃ (p : Word) (q : CellIndex) (bytes : List Byte) (d : Nat),
    bytes.length = (footprint i s).2 ∧
    ((footprint i s).2 ≠ 0 → s.writable (footprint i s).1 (footprint i s).2 = true) ∧
    (q = s.sp ∨ ∃ k, q = wrapSp s.cfg k) ∧
    (d = s.freeDraws ∨ (d = s.freeDraws + 1 ∧ (i = .div ∨ i = .mod))) ∧
    t = { s with
      pc := wrapPc s.cfg p
      sp := q
      idim := isIm i
      breakLine := decide (i = .breakpoint)
      breakEvents := if i = .breakpoint then s.breakEvents ++ [s.pc] else s.breakEvents
      runEnded := if i = .breakpoint then s.cfg.breakEndsRun else s.runEnded
      freeDraws := d
      mem := s.mem.writeList (footprint i s).1 bytes }

/-- The instruction is neither IM nor BREAKPOINT and stores `n` bytes from `a`. -/
def StoresAt (i : Instr) (s : State) (a n : Nat) : Prop :=
  footprint i s = (a, n) ∧ isIm i = false ∧ i ≠ .breakpoint

theorem leaves_of_landing {i : Instr} {s t : State} {a n : Nat} (hi : StoresAt i s a n) (bytes : List Byte) (p : Word)
    (q : CellIndex) (hl : bytes.length = n) (hw : n ≠ 0 → s.writable a n = true)
    (hq : q = s.sp ∨ ∃ k, q = wrapSp s.cfg k) (ht : t = s.landing (wrapPc s.cfg p) q (s.mem.writeList a bytes)) :
    Leaves i s t := by
  obtain ⟨hf, hi, hb⟩ := hi
  refine ⟨p, q, bytes, s.freeDraws, by rw [hf]; exact hl, by rw [hf]; exact hw, hq, .inl rfl, ?_⟩
  rw [ht, hf]
  simp [State.landing, hi, hb]

/-! ### One lemma per operand form -/

theorem leaves_emulateCall {i : Instr} {s t : State} {x : BitVec 5} (hi : StoresAt i s (s.sa (-1#30)) 4)
    (h : s.emulateCall x = .next t) : Leaves i s t := by
  obtain ⟨h1, h2⟩ := emulateCall_eq_next.mp h
  exact leaves_of_landing hi _ _ _ (wordBytes_length _ _) (fun _ => h1) (.inr ⟨_, rfl⟩) h2

theorem leaves_pushForm {i : Instr} {s t : State} {v : Word} (hi : StoresAt i s (s.sa (-1#30)) 4)
    (h : pushForm v s = .next t) : Leaves i s t := by
  obtain ⟨h1, h2⟩ := pushForm_eq_next.mp h
  exact leaves_of_landing hi _ _ _ (wordBytes_length _ _) (fun _ => h1) (.inr ⟨_, rfl⟩) h2

theorem leaves_unaryForm {i : Instr} {s t : State} {f : Word → Word} (hi : StoresAt i s (s.sa 0#30) 4)
    (h : unaryForm f s = .next t) : Leaves i s t := by
  obtain ⟨h1, h2⟩ := unaryForm_eq_next.mp h
  simp only [State.unaryReady, Bool.and_eq_true] at h1
  exact leaves_of_landing hi _ _ _ (wordBytes_length _ _) (fun _ => h1.2) (.inl rfl) h2

theorem leaves_binaryForm {i : Instr} {s t : State} {f : Word → Word → Word} (hi : StoresAt i s (s.sa 1#30) 4)
    (h : binaryForm f s = .next t) : Leaves i s t := by
  obtain ⟨h1, h2⟩ := binaryForm_eq_next.mp h
  simp only [State.binaryReady, Bool.and_eq_true] at h1
  exact leaves_of_landing hi _ _ _ (wordBytes_length _ _) (fun _ => h1.2) (.inr ⟨_, rfl⟩) h2

theorem leaves_callForm {i : Instr} {s t : State} {g : Word → Word} (hi : StoresAt i s (s.sa 0#30) 4)
    (h : callForm g s = .next t) : Leaves i s t := by
  obtain ⟨h1, h2⟩ := callForm_eq_next.mp h
  simp only [State.unaryReady, Bool.and_eq_true] at h1
  exact leaves_of_landing hi _ _ _ (wordBytes_length _ _) (fun _ => h1.2) (.inl rfl) h2

theorem leaves_loadForm {i : Instr} {s t : State} {w : Width} (hi : StoresAt i s (s.sa 0#30) 4)
    (h : loadForm w s = .next t) : Leaves i s t := by
  obtain ⟨h1, h2⟩ := loadForm_eq_next.mp h
  simp only [State.unaryReady, Bool.and_eq_true] at h1
  exact leaves_of_landing hi _ _ _ (wordBytes_length _ _) (fun _ => h1.1.2) (.inl rfl) h2

theorem leaves_storeToCell {i : Instr} {s t : State} {k : CellIndex} (hi : StoresAt i s (s.sa k) 4)
    (h : storeToCell k s = .next t) : Leaves i s t := by
  obtain ⟨h1, h2⟩ := storeToCell_eq_next.mp h
  exact leaves_of_landing hi _ _ _ (wordBytes_length _ _) (fun _ => h1.2) (.inr ⟨_, rfl⟩) h2

theorem leaves_loadFromCell {i : Instr} {s t : State} {k : CellIndex} (hi : StoresAt i s (s.sa (-1#30)) 4)
    (h : loadFromCell k s = .next t) : Leaves i s t := by
  obtain ⟨h1, h2⟩ := loadFromCell_eq_next.mp h
  exact leaves_of_landing hi _ _ _ (wordBytes_length _ _) (fun _ => h1.2) (.inr ⟨_, rfl⟩) h2

theorem leaves_addFromCell {i : Instr} {s t : State} {k : CellIndex} (hi : StoresAt i s (s.sa 0#30) 4)
    (h : addFromCell k s = .next t) : Leaves i s t := by
  obtain ⟨h1, h2⟩ := addFromCell_eq_next.mp h
  simp only [State.unaryReady, Bool.and_eq_true] at h1
  exact leaves_of_landing hi _ _ _ (wordBytes_length _ _) (fun _ => h1.1.2) (.inl rfl) h2

theorem leaves_storeForm {i : Instr} {s t : State} {w : Width} (hi : StoresAt i s (s.cell 0#30).toNat (bytesIn w))
    (h : storeForm w s = .next t) : Leaves i s t := by
  obtain ⟨h1, h2⟩ := storeForm_eq_next.mp h
  exact leaves_of_landing hi _ _ _ (dataBytes_length _ _ _) (fun _ => h1.2.2) (.inr ⟨_, rfl⟩) h2

theorem leaves_branchForm {i : Instr} {s t : State} {taken : Word → Bool} (hi : StoresAt i s 0 0)
    (h : branchForm taken s = .next t) : Leaves i s t := by
  obtain ⟨h1, h2⟩ := branchForm_eq_next.mp h
  refine leaves_of_landing hi [] (if taken (s.cell 1#30) = true then s.pc + s.cell 0#30 else s.pc + 1#32)
    (s.spPlus 2#30) rfl (fun h => absurd rfl h) (.inr ⟨_, rfl⟩) (h2.trans ?_)
  split <;> rfl

theorem leaves_binaryOpenForm {i : Instr} {s t : State} {f : Word → Word → Option Word}
    (hi : StoresAt i s (s.sa 1#30) 4) (hd : i = .div ∨ i = .mod) (h : binaryOpenForm f s = .next t) :
    Leaves i s t := by
  obtain ⟨hf, hi, hb⟩ := hi
  obtain ⟨h1, h2⟩ := binaryOpenForm_eq_next.mp h
  simp only [State.binaryReady, Bool.and_eq_true] at h1
  refine ⟨s.pc + 1#32, s.spPlus 1#30, wordBytes s.cfg.byteOrder (s.settle (f (s.cell 0#30) (s.cell 1#30))).1,
    (s.settle (f (s.cell 0#30) (s.cell 1#30))).2.freeDraws, by simp [hf], ?_, .inr ⟨s.sp + 1#30, rfl⟩, ?_, ?_⟩
  · rw [hf]
    exact fun _ => h1.2
  · cases f (s.cell 0#30) (s.cell 1#30)
    · exact .inr ⟨rfl, hd⟩
    · exact .inl rfl
  · rw [hf, h2]
    simp [State.landing, hi, hb, State.memWithCell, Memory.writeWord]
    rfl

/-- An optional instruction leaves what its hardware rule leaves, or what the emulation call leaves. -/
theorem leaves_whereBuilt {i : Instr} {s t : State} {op : Nat} {hw : Res State} (a n : Nat)
    (hi : isIm i = false ∧ i ≠ .breakpoint)
    (hf : footprint i s = if s.cfg.builds op then (a, n) else (s.sa (-1#30), 4))
    (built : StoresAt i s a n → hw = .next t → Leaves i s t) (h : s.whereBuilt op hw = .next t) : Leaves i s t := by
  cases hc : s.cfg.builds op
  · rw [whereBuilt_of_unbuilt hc] at h
    rw [hc] at hf
    exact leaves_emulateCall ⟨hf, hi⟩ h
  · rw [whereBuilt_of_built hc] at h
    rw [hc] at hf
    exact built ⟨hf, hi⟩ h

/-! ### Every instruction -/

theorem leaves_im {x : BitVec 7} {s t : State} (h : execIm x s = .next t) : Leaves (.im x) s t := by
  unfold execIm at h
  split at h
  · rename_i hd
    simp only [bind_eq_next, readStk_eq_next, writeStk_eq_next] at h
    obtain ⟨a, ⟨h1, rfl⟩, u, ⟨h2, rfl⟩, h3⟩ := h
    have hf : footprint (.im x) s = (s.sa 0#30, 4) := by simp [footprint, hd]
    refine ⟨s.pc + 1#32, s.sp, wordBytes s.cfg.byteOrder ((s.cell 0#30).extractLsb' 0 25 ++ x), s.freeDraws,
      by simp [hf], by rw [hf]; exact fun _ => h2, .inl rfl, .inl rfl, ?_⟩
    rw [← Host.Outcome.next.inj h3, hf]
    rfl
  · rename_i hd
    simp only [bind_eq_next, push_eq_next] at h
    obtain ⟨u, ⟨h2, rfl⟩, h3⟩ := h
    have hf : footprint (.im x) s = (s.sa (-1#30), 4) := by simp [footprint, hd]
    refine ⟨s.pc + 1#32, s.spPlus (-1#30), wordBytes s.cfg.byteOrder (x.signExtend 32), s.freeDraws,
      by simp [hf], by rw [hf]; exact fun _ => h2, .inr ⟨_, rfl⟩, .inl rfl, ?_⟩
    rw [← Host.Outcome.next.inj h3, hf]
    rfl

theorem leaves_popsp {s t : State} (h : execPopsp s = .next t) : Leaves .popsp s t := by
  simp only [execPopsp, bind_eq_next, readStk_eq_next] at h
  obtain ⟨a, ⟨h1, rfl⟩, h3⟩ := h
  exact leaves_of_landing ⟨rfl, rfl, nofun⟩ [] (s.pc + 1#32) _ rfl (fun h => absurd rfl h) (.inr ⟨_, rfl⟩)
    (Host.Outcome.next.inj h3).symm

theorem leaves_poppcrel {s t : State} (h : execPoppcrel s = .next t) : Leaves .poppcrel s t := by
  refine leaves_whereBuilt 0 0 ⟨rfl, nofun⟩ rfl (fun hi h => ?_) h
  simp only [bind_eq_next, pop_eq_next] at h
  obtain ⟨a, ⟨h1, rfl⟩, h3⟩ := h
  exact leaves_of_landing hi [] (s.pc + s.cell 0#30) _ rfl (fun h => absurd rfl h) (.inr ⟨_, rfl⟩)
    (Host.Outcome.next.inj h3).symm

/-- What an instruction can do when it goes on. -/
theorem leaves_of_exec_eq_next {i : Instr} {s t : State} (h : exec i s = .next t) : Leaves i s t := by
  cases i
  case im => exact leaves_im h
  case storesp => exact leaves_storeToCell ⟨rfl, rfl, nofun⟩ h
  case pop => exact leaves_storeToCell ⟨rfl, rfl, nofun⟩ h
  case popdown => exact leaves_storeToCell ⟨rfl, rfl, nofun⟩ h
  case loadsp => exact leaves_loadFromCell ⟨rfl, rfl, nofun⟩ h
  case dup => exact leaves_loadFromCell ⟨rfl, rfl, nofun⟩ h
  case dupstackb => exact leaves_loadFromCell ⟨rfl, rfl, nofun⟩ h
  case addsp => exact leaves_addFromCell ⟨rfl, rfl, nofun⟩ h
  case addtop => exact leaves_addFromCell ⟨rfl, rfl, nofun⟩ h
  case shift => exact leaves_addFromCell ⟨rfl, rfl, nofun⟩ h
  case emulate => exact leaves_emulateCall ⟨rfl, rfl, nofun⟩ h
  case breakpoint =>
    exact ⟨s.pc + 1#32, s.sp, [], s.freeDraws, rfl, fun h => absurd rfl h, .inl rfl, .inl rfl,
      (Host.Outcome.next.inj h).symm⟩
  case shiftlleft => cases h
  case pushsp => exact leaves_pushForm ⟨rfl, rfl, nofun⟩ h
  case popint => cases h
  case poppc =>
    obtain ⟨h1, h2⟩ := returnFromCall_eq_next.mp h
    exact leaves_of_landing ⟨rfl, rfl, nofun⟩ [] _ _ rfl (fun h => absurd rfl h) (.inr ⟨_, rfl⟩) h2
  case add => exact leaves_binaryForm ⟨rfl, rfl, nofun⟩ h
  case and => exact leaves_binaryForm ⟨rfl, rfl, nofun⟩ h
  case or => exact leaves_binaryForm ⟨rfl, rfl, nofun⟩ h
  case load => exact leaves_loadForm ⟨rfl, rfl, nofun⟩ h
  case not => exact leaves_unaryForm ⟨rfl, rfl, nofun⟩ h
  case flip => exact leaves_unaryForm ⟨rfl, rfl, nofun⟩ h
  case nop =>
    exact leaves_of_landing ⟨rfl, rfl, nofun⟩ [] (s.pc + 1#32) _ rfl (fun h => absurd rfl h) (.inl rfl)
      (Host.Outcome.next.inj h).symm
  case store => exact leaves_storeForm ⟨rfl, rfl, nofun⟩ h
  case popsp => exact leaves_popsp h
  case compare => cases h
  case sncpy => cases h
  case sncpy2 => exact leaves_emulateCall ⟨rfl, rfl, nofun⟩ h
  case wcpy => exact leaves_emulateCall ⟨rfl, rfl, nofun⟩ h
  case loadh => exact leaves_whereBuilt _ _ ⟨rfl, nofun⟩ rfl leaves_loadForm h
  case storeh => exact leaves_whereBuilt _ _ ⟨rfl, nofun⟩ rfl (leaves_storeForm (w := .half)) h
  case lessthan => exact leaves_whereBuilt _ _ ⟨rfl, nofun⟩ rfl leaves_binaryForm h
  case lessthanorequal => exact leaves_whereBuilt _ _ ⟨rfl, nofun⟩ rfl leaves_binaryForm h
  case ulessthan => exact leaves_whereBuilt _ _ ⟨rfl, nofun⟩ rfl leaves_binaryForm h
  case ulessthanorequal => exact leaves_whereBuilt _ _ ⟨rfl, nofun⟩ rfl leaves_binaryForm h
  case swap => exact leaves_emulateCall ⟨rfl, rfl, nofun⟩ h
  case mult => exact leaves_whereBuilt _ _ ⟨rfl, nofun⟩ rfl leaves_binaryForm h
  case lshiftright => exact leaves_whereBuilt _ _ ⟨rfl, nofun⟩ rfl leaves_binaryForm h
  case ashiftleft => exact leaves_whereBuilt _ _ ⟨rfl, nofun⟩ rfl leaves_binaryForm h
  case ashiftright => exact leaves_whereBuilt _ _ ⟨rfl, nofun⟩ rfl leaves_binaryForm h
  case call => exact leaves_whereBuilt _ _ ⟨rfl, nofun⟩ rfl leaves_callForm h
  case eq => exact leaves_whereBuilt _ _ ⟨rfl, nofun⟩ rfl leaves_binaryForm h
  case neq => exact leaves_whereBuilt _ _ ⟨rfl, nofun⟩ rfl leaves_binaryForm h
  case neg => exact leaves_whereBuilt _ _ ⟨rfl, nofun⟩ rfl leaves_unaryForm h
  case sub => exact leaves_whereBuilt _ _ ⟨rfl, nofun⟩ rfl leaves_binaryForm h
  case xor => exact leaves_whereBuilt _ _ ⟨rfl, nofun⟩ rfl leaves_binaryForm h
  case loadb => exact leaves_whereBuilt _ _ ⟨rfl, nofun⟩ rfl leaves_loadForm h
  case storeb => exact leaves_whereBuilt _ _ ⟨rfl, nofun⟩ rfl (leaves_storeForm (w := .byte)) h
  case div =>
    exact leaves_whereBuilt _ _ ⟨rfl, nofun⟩ rfl (fun hi h => leaves_binaryOpenForm hi (by simp) h) h
  case mod =>
    exact leaves_whereBuilt _ _ ⟨rfl, nofun⟩ rfl (fun hi h => leaves_binaryOpenForm hi (by simp) h) h
  case eqbranch => exact leaves_whereBuilt _ _ ⟨rfl, nofun⟩ rfl leaves_branchForm h
  case neqbranch => exact leaves_whereBuilt _ _ ⟨rfl, nofun⟩ rfl leaves_branchForm h
  case poppcrel => exact leaves_poppcrel h
  case config => exact leaves_emulateCall ⟨rfl, rfl, nofun⟩ h
  case pushpc => exact leaves_whereBuilt _ _ ⟨rfl, nofun⟩ rfl leaves_pushForm h
  case syscall => exact leaves_emulateCall ⟨rfl, rfl, nofun⟩ h
  case pushspadd => exact leaves_whereBuilt _ _ ⟨rfl, nofun⟩ rfl leaves_unaryForm h
  case halfmult => exact leaves_whereBuilt _ _ ⟨rfl, nofun⟩ rfl leaves_binaryForm h
  case callpcrel => exact leaves_whereBuilt _ _ ⟨rfl, nofun⟩ rfl leaves_callForm h

/-- A step that goes on executes one instruction. -/
theorem exec_of_step_eq_next {s t : State} (h : step s = .next t) :
    exec (decodeFor s.cfg (s.mem.read s.pc.toNat)) s = .next t := by
  unfold step at h
  split at h
  · cases h
  · obtain ⟨op, hop, h⟩ := bind_eq_next.mp h
    simp only [State.fetch, bind_eq_next] at hop
    obtain ⟨_, _, hop⟩ := hop
    rw [Host.Outcome.next.inj hop]
    exact h

end Sys2Proof.Machine
end

