-- ==== Sys2Proof/Laws/PerInstr.lean ====
section
/-! SUPPORT. For every instruction: its byte is in its own row of spec/opcode_table.json
(`op AND mask = match`, spec/30_encoding.md R85). -/

namespace Sys2Proof.Laws.TableRow

/-- The byte `encode` writes for the instruction matches the instruction's row of the opcode table. -/
def Statement (i : Instr) : Prop := encode i &&& i.tableRow.mask = i.tableRow.pattern

theorem im (x : BitVec 7) : Statement (.im x) := by
  unfold Statement
  revert x
  decide

theorem storesp (x : BitVec 5) : Statement (.storesp x) := by
  unfold Statement
  revert x
  decide

theorem pop : Statement .pop := by unfold Statement; decide
theorem popdown : Statement .popdown := by unfold Statement; decide
theorem loadsp (x : BitVec 5) : Statement (.loadsp x) := by
  unfold Statement
  revert x
  decide

theorem dup : Statement .dup := by unfold Statement; decide
theorem dupstackb : Statement .dupstackb := by unfold Statement; decide
theorem addsp (x : BitVec 4) : Statement (.addsp x) := by
  unfold Statement
  revert x
  decide

theorem addtop : Statement .addtop := by unfold Statement; decide
theorem shift : Statement .shift := by unfold Statement; decide
theorem emulate (x : BitVec 5) : Statement (.emulate x) := by
  unfold Statement
  revert x
  decide

theorem breakpoint : Statement .breakpoint := by unfold Statement; decide
theorem shiftlleft : Statement .shiftlleft := by unfold Statement; decide
theorem pushsp : Statement .pushsp := by unfold Statement; decide
theorem popint : Statement .popint := by unfold Statement; decide
theorem poppc : Statement .poppc := by unfold Statement; decide
theorem add : Statement .add := by unfold Statement; decide
theorem and : Statement .and := by unfold Statement; decide
theorem or : Statement .or := by unfold Statement; decide
theorem load : Statement .load := by unfold Statement; decide
theorem not : Statement .not := by unfold Statement; decide
theorem flip : Statement .flip := by unfold Statement; decide
theorem nop : Statement .nop := by unfold Statement; decide
theorem store : Statement .store := by unfold Statement; decide
theorem popsp : Statement .popsp := by unfold Statement; decide
theorem compare : Statement .compare := by unfold Statement; decide
theorem sncpy : Statement .sncpy := by unfold Statement; decide
theorem sncpy2 : Statement .sncpy2 := by unfold Statement; decide
theorem wcpy : Statement .wcpy := by unfold Statement; decide
theorem loadh : Statement .loadh := by unfold Statement; decide
theorem storeh : Statement .storeh := by unfold Statement; decide
theorem lessthan : Statement .lessthan := by unfold Statement; decide
theorem lessthanorequal : Statement .lessthanorequal := by unfold Statement; decide
theorem ulessthan : Statement .ulessthan := by unfold Statement; decide
theorem ulessthanorequal : Statement .ulessthanorequal := by unfold Statement; decide
theorem swap : Statement .swap := by unfold Statement; decide
theorem mult : Statement .mult := by unfold Statement; decide
theorem lshiftright : Statement .lshiftright := by unfold Statement; decide
theorem ashiftleft : Statement .ashiftleft := by unfold Statement; decide
theorem ashiftright : Statement .ashiftright := by unfold Statement; decide
theorem call : Statement .call := by unfold Statement; decide
theorem eq : Statement .eq := by unfold Statement; decide
theorem neq : Statement .neq := by unfold Statement; decide
theorem neg : Statement .neg := by unfold Statement; decide
theorem sub : Statement .sub := by unfold Statement; decide
theorem xor : Statement .xor := by unfold Statement; decide
theorem loadb : Statement .loadb := by unfold Statement; decide
theorem storeb : Statement .storeb := by unfold Statement; decide
theorem div : Statement .div := by unfold Statement; decide
theorem mod : Statement .mod := by unfold Statement; decide
theorem eqbranch : Statement .eqbranch := by unfold Statement; decide
theorem neqbranch : Statement .neqbranch := by unfold Statement; decide
theorem poppcrel : Statement .poppcrel := by unfold Statement; decide
theorem config : Statement .config := by unfold Statement; decide
theorem pushpc : Statement .pushpc := by unfold Statement; decide
theorem syscall : Statement .syscall := by unfold Statement; decide
theorem pushspadd : Statement .pushspadd := by unfold Statement; decide
theorem halfmult : Statement .halfmult := by unfold Statement; decide
theorem callpcrel : Statement .callpcrel := by unfold Statement; decide

end Sys2Proof.Laws.TableRow
end

