-- ==== Sys2Proof/Tests/Slice0.lean ====
section
/-! SUPPORT. The model's own tests, each on one byte or one step. Expected results are those of the spec's vectors
(spec/95_test_vectors.md, named V<file>-<n> there) or of the examples in the rules named; none was taken from the model.
Then, for each statement of Certificates/Slice0/Obligations.lean that has hypotheses, witnesses that meet them. -/

namespace Sys2Proof.Machine

-- One theorem after another: as many threads as there are theorems here would not fit the checks' memory limit.
set_option Elab.async false

/-! ### Helpers -/

/-- Words stored one after the other, upward from an address, in big byte order. -/
def testWords (m : Memory) (a : Nat) : List Word → Memory
  | [] => m
  | v :: rest => testWords (m.writeWord .big a v) (a + 4) rest

/-- The setting of the spec's vectors: `op` at `pc`, the stack at byte 0x1000 (`sp = 0x400`), a data word at 0x2000. -/
def testStateIn (c : Config) (data : Word) (op : Byte) (pc : Word) (stack : List Word) : State :=
  State.resetWith c pc 0x400#30
    ((testWords (testWords [] 0x2000 [data]) 0x1000 stack).write pc.toNat op)

/-- The same with the default configuration and the data word of the vectors of section 2.5. -/
def testState (op : Byte) (pc : Word) (stack : List Word) : State :=
  testStateIn Config.default 0x11223344#32 op pc stack

/-- Every opcode with a hardware rule built, and none. -/
def allBuilt : Config := { Config.default with hwImpl := buildableOpcodes }
def noneBuilt : Config := { Config.default with hwImpl := [] }

/-- A map with plain memory up to 0x7FFF, a device at 0x9000 to 0x900F, and nothing elsewhere. -/
def holedMap : Config :=
  { Config.default with memMap := [⟨0, 0x8000, .plain⟩, ⟨0x9000, 16, .device⟩] }

/-- What a next state shows; nothing where the step stops. -/
def seen {α : Type} (r : Res State) (f : State → α) : Option α :=
  match r with
  | .next t => some (f t)
  | _ => none

/-- The reason of a refusal. -/
def refusalOf (r : Res State) : Option Refusal :=
  match r with
  | .refused e => some e
  | _ => none

/-- The reason of a fault. -/
def faultOf (r : Res State) : Option Fault :=
  match r with
  | .fault e => some e
  | _ => none

/-- A step that shows something went on. -/
theorem goes_on {r : Res State} (h : (seen r fun t => t.idim).isSome = true) : ∃ t, r = .next t := by
  cases r with
  | next t => exact ⟨t, rfl⟩
  | fault e => simp [seen] at h
  | refused e => simp [seen] at h

/-- A statement for each value of a short list, value by value. -/
theorem forall_two {α : Type} {P : α → Prop} {x y : α} (hx : P x) (hy : P y) : ∀ a ∈ [x, y], P a :=
  List.forall_mem_cons.2 ⟨hx, List.forall_mem_cons.2 ⟨hy, nofun⟩⟩
theorem forall_three {α : Type} {P : α → Prop} {x y z : α} (hx : P x) (hy : P y) (hz : P z) : ∀ a ∈ [x, y, z], P a :=
  List.forall_mem_cons.2 ⟨hx, forall_two hy hz⟩

/-- `pc`, `sp` and the two top cells. -/
def view2 (t : State) : Word × CellIndex × Word × Word := (t.pc, t.sp, t.cell 0#30, t.cell 1#30)

/-! ### Well-formed terms: an ill-formed term for each check, which the check refuses -/

theorem test_storesp_0_is_ill_formed : (Instr.storesp 0#5).wellFormed = false := by decide
theorem test_storesp_1_is_ill_formed : (Instr.storesp 1#5).wellFormed = false := by decide
theorem test_storesp_2_is_well_formed : (Instr.storesp 2#5).wellFormed = true := by decide
theorem test_loadsp_0_is_ill_formed : (Instr.loadsp 0#5).wellFormed = false := by decide
theorem test_loadsp_1_is_ill_formed : (Instr.loadsp 1#5).wellFormed = false := by decide
theorem test_loadsp_2_is_well_formed : (Instr.loadsp 2#5).wellFormed = true := by decide
theorem test_addsp_0_is_ill_formed : (Instr.addsp 0#4).wellFormed = false := by decide
theorem test_addsp_1_is_ill_formed : (Instr.addsp 1#4).wellFormed = false := by decide
theorem test_addsp_2_is_well_formed : (Instr.addsp 2#4).wellFormed = true := by decide
theorem test_emulate_is_ill_formed : (Instr.emulate 26#5).wellFormed = false := by decide

/-! ### Decoding: bytes written out bit by bit from spec/30_encoding.md R71, R74, R76, R78 -/

theorem test_decode_im : decode 0b10000001#8 = (.im 1#7) := by decide
theorem test_decode_storesp_2 : decode 0b01010010#8 = (.storesp 2#5) := by decide
theorem test_decode_storesp_16 : decode 0b01000000#8 = (.storesp 16#5) := by decide
theorem test_decode_storesp_31 : decode 0b01001111#8 = (.storesp 31#5) := by decide
theorem test_decode_pop : decode 0b01010000#8 = .pop := by decide
theorem test_decode_popdown : decode 0b01010001#8 = .popdown := by decide
theorem test_decode_loadsp_15 : decode 0b01111111#8 = (.loadsp 15#5) := by decide
theorem test_decode_loadsp_16 : decode 0b01100000#8 = (.loadsp 16#5) := by decide
theorem test_decode_dup : decode 0b01110000#8 = .dup := by decide
theorem test_decode_dupstackb : decode 0b01110001#8 = .dupstackb := by decide
theorem test_decode_addsp_15 : decode 0b00011111#8 = (.addsp 15#4) := by decide
theorem test_decode_addtop : decode 0b00010001#8 = .addtop := by decide
theorem test_decode_shift : decode 0b00010000#8 = .shift := by decide
theorem test_decode_breakpoint : decode 0b00000000#8 = .breakpoint := by decide
theorem test_decode_shiftlleft : decode 0b00000001#8 = .shiftlleft := by decide
theorem test_decode_pushsp : decode 0b00000010#8 = .pushsp := by decide
theorem test_decode_popint : decode 0b00000011#8 = .popint := by decide
theorem test_decode_poppc : decode 0b00000100#8 = .poppc := by decide
theorem test_decode_add : decode 0b00000101#8 = .add := by decide
theorem test_decode_and : decode 0b00000110#8 = .and := by decide
theorem test_decode_or : decode 0b00000111#8 = .or := by decide
theorem test_decode_load : decode 0b00001000#8 = .load := by decide
theorem test_decode_not : decode 0b00001001#8 = .not := by decide
theorem test_decode_flip : decode 0b00001010#8 = .flip := by decide
theorem test_decode_nop : decode 0b00001011#8 = .nop := by decide
theorem test_decode_store : decode 0b00001100#8 = .store := by decide
theorem test_decode_popsp : decode 0b00001101#8 = .popsp := by decide
theorem test_decode_compare : decode 0b00001110#8 = .compare := by decide
theorem test_decode_sncpy : decode 0b00001111#8 = .sncpy := by decide
theorem test_decode_sncpy2 : decode 0b00100000#8 = .sncpy2 := by decide
theorem test_decode_wcpy : decode 0b00100001#8 = .wcpy := by decide
theorem test_decode_loadh : decode 0b00100010#8 = .loadh := by decide
theorem test_decode_storeh : decode 0b00100011#8 = .storeh := by decide
theorem test_decode_lessthan : decode 0b00100100#8 = .lessthan := by decide
theorem test_decode_lessthanorequal : decode 0b00100101#8 = .lessthanorequal := by decide
theorem test_decode_ulessthan : decode 0b00100110#8 = .ulessthan := by decide
theorem test_decode_ulessthanorequal : decode 0b00100111#8 = .ulessthanorequal := by decide
theorem test_decode_swap : decode 0b00101000#8 = .swap := by decide
theorem test_decode_mult : decode 0b00101001#8 = .mult := by decide
theorem test_decode_lshiftright : decode 0b00101010#8 = .lshiftright := by decide
theorem test_decode_ashiftleft : decode 0b00101011#8 = .ashiftleft := by decide
theorem test_decode_ashiftright : decode 0b00101100#8 = .ashiftright := by decide
theorem test_decode_call : decode 0b00101101#8 = .call := by decide
theorem test_decode_eq : decode 0b00101110#8 = .eq := by decide
theorem test_decode_neq : decode 0b00101111#8 = .neq := by decide
theorem test_decode_neg : decode 0b00110000#8 = .neg := by decide
theorem test_decode_sub : decode 0b00110001#8 = .sub := by decide
theorem test_decode_xor : decode 0b00110010#8 = .xor := by decide
theorem test_decode_loadb : decode 0b00110011#8 = .loadb := by decide
theorem test_decode_storeb : decode 0b00110100#8 = .storeb := by decide
theorem test_decode_div : decode 0b00110101#8 = .div := by decide
theorem test_decode_mod : decode 0b00110110#8 = .mod := by decide
theorem test_decode_eqbranch : decode 0b00110111#8 = .eqbranch := by decide
theorem test_decode_neqbranch : decode 0b00111000#8 = .neqbranch := by decide
theorem test_decode_poppcrel : decode 0b00111001#8 = .poppcrel := by decide
theorem test_decode_config : decode 0b00111010#8 = .config := by decide
theorem test_decode_pushpc : decode 0b00111011#8 = .pushpc := by decide
theorem test_decode_syscall : decode 0b00111100#8 = .syscall := by decide
theorem test_decode_pushspadd : decode 0b00111101#8 = .pushspadd := by decide
theorem test_decode_halfmult : decode 0b00111110#8 = .halfmult := by decide
theorem test_decode_callpcrel : decode 0b00111111#8 = .callpcrel := by decide

/-- EMULATE has no byte of its own: its byte is the optional opcode's, which runs as EMULATE where it is not built. -/
theorem test_decode_emulate : decodeFor Config.default 0b00111010#8 = .emulate 26#5 := by decide
theorem test_decode_built_neg : decodeFor Config.default 0b00110000#8 = .neg := by decide
theorem test_decode_unbuilt_neg : decodeFor noneBuilt 0b00110000#8 = .emulate 16#5 := by decide
theorem test_decodeTableWord_loadsp : decodeTableWord 8 0x72 = some (.loadsp 2#5) := by decide

/-! ### One step, on the spec's vectors -/

/-- V40-3. -/
theorem test_im_sign_extends :
    seen (step (testState 0xC0#8 0x500#32 [])) view2 = some (0x501#32, 0x3FF#30, 0xFFFFFFC0#32, 0x0#32) :=
  by decide +kernel
/-- V40-7: the continuation drops the top seven bits. -/
theorem test_im_continues :
    seen (step { testState 0xD5#8 0x500#32 [0xFE000001#32] with idim := true }) (fun t => (t.cell 0#30, t.sp, t.idim)) =
      some (0xD5#32, 0x400#30, true) :=
  by decide +kernel
/-- V40-9. -/
theorem test_config_is_emulate_26 :
    seen (step (testState 0x3A#8 0x500#32 [0x9#32])) view2 = some (0x340#32, 0x3FF#30, 0x501#32, 0x9#32) :=
  by decide +kernel
/-- V40-10. -/
theorem test_sncpy2_is_emulate_0 :
    seen (step (testState 0x20#8 0x500#32 [0x9#32])) view2 = some (0x0#32, 0x3FF#30, 0x501#32, 0x9#32) :=
  by decide +kernel
/-- V40-11. -/
theorem test_wcpy_is_emulate_1 :
    seen (step (testState 0x21#8 0x500#32 [0x9#32])) view2 = some (0x20#32, 0x3FF#30, 0x501#32, 0x9#32) :=
  by decide +kernel
/-- V40-12. -/
theorem test_swap_is_emulate_8 :
    seen (step (testState 0x28#8 0x500#32 [0x9#32])) view2 = some (0x100#32, 0x3FF#30, 0x501#32, 0x9#32) :=
  by decide +kernel
/-- V40-13. -/
theorem test_halfmult_is_emulate_30 :
    seen (step (testState 0x3E#8 0x500#32 [0x9#32])) view2 = some (0x3C0#32, 0x3FF#30, 0x501#32, 0x9#32) :=
  by decide +kernel
/-- V40-14. -/
theorem test_syscall_return_address_wraps :
    seen (step (testState 0x3C#8 0xFFFF#32 [0x9#32])) view2 = some (0x380#32, 0x3FF#30, 0x0#32, 0x9#32) :=
  by decide +kernel
/-- V40-15. -/
theorem test_unbuilt_neg_is_emulate_16 :
    seen (step (testStateIn noneBuilt 0#32 0x30#8 0x500#32 [0x5#32])) view2 =
      some (0x200#32, 0x3FF#30, 0x501#32, 0x5#32) :=
  by decide +kernel
/-- V41-1. -/
theorem test_storesp :
    seen (step (testState 0x52#8 0x500#32 [0xA#32, 0x14#32, 0x1E#32, 0x28#32])) view2 =
      some (0x501#32, 0x401#30, 0x14#32, 0xA#32) :=
  by decide +kernel
/-- V41-2. -/
theorem test_pop :
    seen (step (testState 0x50#8 0x500#32 [0xA#32, 0x14#32, 0x1E#32])) view2 =
      some (0x501#32, 0x401#30, 0x14#32, 0x1E#32) :=
  by decide +kernel
/-- V41-3. -/
theorem test_popdown :
    seen (step (testState 0x51#8 0x500#32 [0xA#32, 0x14#32, 0x1E#32])) view2 =
      some (0x501#32, 0x401#30, 0xA#32, 0x1E#32) :=
  by decide +kernel
/-- V41-10. -/
theorem test_loadsp :
    seen (step (testState 0x72#8 0x500#32 [0xA#32, 0x14#32, 0x1E#32])) view2 =
      some (0x501#32, 0x3FF#30, 0x1E#32, 0xA#32) :=
  by decide +kernel
/-- V41-8. -/
theorem test_dup :
    seen (step (testState 0x70#8 0x500#32 [0xA#32, 0x14#32])) view2 = some (0x501#32, 0x3FF#30, 0xA#32, 0xA#32) :=
  by decide +kernel
/-- V41-9. -/
theorem test_dupstackb :
    seen (step (testState 0x71#8 0x500#32 [0xA#32, 0x14#32, 0x1E#32])) view2 =
      some (0x501#32, 0x3FF#30, 0x14#32, 0xA#32) :=
  by decide +kernel
/-- V41-17. -/
theorem test_addsp :
    seen (step (testState 0x12#8 0x500#32 [0xA#32, 0x14#32, 0x1E#32])) view2 =
      some (0x501#32, 0x400#30, 0x28#32, 0x14#32) :=
  by decide +kernel
/-- V41-16. -/
theorem test_addtop :
    seen (step (testState 0x11#8 0x500#32 [0xA#32, 0x14#32, 0x1E#32])) view2 =
      some (0x501#32, 0x400#30, 0x1E#32, 0x14#32) :=
  by decide +kernel
/-- V41-14. -/
theorem test_shift :
    seen (step (testState 0x10#8 0x500#32 [0x40000001#32, 0x7#32])) view2 =
      some (0x501#32, 0x400#30, 0x80000002#32, 0x7#32) :=
  by decide +kernel
/-- V41-21. -/
theorem test_im_into_executing_word :
    refusalOf (step (testState 0x81#8 0xFFD#32 [])) = some .storeIntoExecutingWord :=
  by decide +kernel
/-- V42-1, V60-4. -/
theorem test_breakpoint :
    seen (step (testState 0x00#8 0x40#32 [5#32])) (fun t => (t.pc, t.cell 0#30, t.breakEvents, t.runEnded)) =
      some (0x41#32, 5#32, [0x40#32], true) :=
  by decide +kernel
/-- V42-27. -/
theorem test_shiftlleft_is_refused :
    refusalOf (step (testState 0x01#8 0x500#32 [0x5#32])) = some (.notAvailable "SHIFTLLEFT") :=
  by decide +kernel
/-- V42-2. -/
theorem test_pushsp :
    seen (step (testState 0x02#8 0x500#32 [0x5#32])) view2 = some (0x501#32, 0x3FF#30, 0x1000#32, 0x5#32) :=
  by decide +kernel
/-- V42-28. -/
theorem test_popint_is_refused :
    refusalOf (step (testState 0x03#8 0x500#32 [0x5#32])) = some (.notAvailable "POPINT") :=
  by decide +kernel
/-- V42-5. -/
theorem test_poppc_drops_high_bits :
    seen (step (testState 0x04#8 0x500#32 [0x12345#32, 0x5#32])) view2 = some (0x2345#32, 0x401#30, 0x5#32, 0x0#32) :=
  by decide +kernel
/-- V42-7. -/
theorem test_add_wraps :
    seen (step (testState 0x05#8 0x500#32 [0xFFFFFFFF#32, 0x1#32, 0x9#32])) view2 =
      some (0x501#32, 0x401#30, 0x0#32, 0x9#32) :=
  by decide +kernel
/-- V42-8. -/
theorem test_and :
    seen (step (testState 0x06#8 0x500#32 [0xFF00FF00#32, 0xFF00FF0#32, 0x9#32])) view2 =
      some (0x501#32, 0x401#30, 0xF000F00#32, 0x9#32) :=
  by decide +kernel
/-- V42-9. -/
theorem test_or :
    seen (step (testState 0x07#8 0x500#32 [0xFF00FF00#32, 0xFF00FF0#32, 0x9#32])) view2 =
      some (0x501#32, 0x401#30, 0xFFF0FFF0#32, 0x9#32) :=
  by decide +kernel
/-- V42-10, with the word of section 2.5. -/
theorem test_load :
    seen (step (testState 0x08#8 0x500#32 [0x2000#32, 0x5#32])) view2 =
      some (0x501#32, 0x400#30, 0x11223344#32, 0x5#32) :=
  by decide +kernel
/-- V42-15. -/
theorem test_load_beyond_the_map :
    faultOf (step (testState 0x08#8 0x500#32 [0x12000#32, 0x5#32])) = some .unmapped :=
  by decide +kernel
/-- V42-16. -/
theorem test_not :
    seen (step (testState 0x09#8 0x500#32 [0xFFFF#32, 0x5#32])) view2 =
      some (0x501#32, 0x400#30, 0xFFFF0000#32, 0x5#32) :=
  by decide +kernel
/-- V42-18. -/
theorem test_flip :
    seen (step (testState 0x0A#8 0x500#32 [0x12345678#32, 0x5#32])) view2 =
      some (0x501#32, 0x400#30, 0x1E6A2C48#32, 0x5#32) :=
  by decide +kernel
/-- V42-19. -/
theorem test_nop :
    seen (step (testState 0x0B#8 0x500#32 [0x5#32, 0x6#32])) view2 = some (0x501#32, 0x400#30, 0x5#32, 0x6#32) :=
  by decide +kernel
/-- V42-24. -/
theorem test_store_into_the_stack :
    seen (step (testState 0x0C#8 0x500#32 [0x100C#32, 0xDEADBEEF#32, 0x5#32, 0x6#32, 0x7#32])) view2 =
      some (0x501#32, 0x402#30, 0x5#32, 0xDEADBEEF#32) :=
  by decide +kernel
/-- V42-23. -/
theorem test_store_into_executing_word :
    refusalOf (step (testState 0x0C#8 0x500#32 [0x500#32, 0xDEADBEEF#32, 0x5#32])) = some .storeIntoExecutingWord :=
  by decide +kernel
/-- V42-26. -/
theorem test_popsp :
    seen (step (testState 0x0D#8 0x500#32 [0x12003#32, 0x5#32])) (fun t => (t.pc, t.sp)) =
      some (0x501#32, 0x800#30) :=
  by decide +kernel
/-- V42-29. -/
theorem test_compare_is_refused :
    refusalOf (step (testState 0x0E#8 0x500#32 [0x5#32])) = some (.notAvailable "COMPARE") :=
  by decide +kernel
/-- V42-30. -/
theorem test_sncpy_is_refused :
    refusalOf (step (testState 0x0F#8 0x500#32 [0x5#32])) = some (.notAvailable "SNCPY") :=
  by decide +kernel
/-- V43-2. -/
theorem test_lessthan :
    seen (step (testState 0x24#8 0x500#32 [0x80000000#32, 0x1#32])) view2 =
      some (0x501#32, 0x401#30, 0x1#32, 0x0#32) :=
  by decide +kernel
/-- V43-4. -/
theorem test_lessthan_is_signed :
    seen (step (testState 0x24#8 0x500#32 [0x1#32, 0xFFFFFFFF#32])) view2 =
      some (0x501#32, 0x401#30, 0x0#32, 0x0#32) :=
  by decide +kernel
/-- V43-5. -/
theorem test_lessthanorequal :
    seen (step (testState 0x25#8 0x500#32 [0x1#32, 0x1#32])) view2 = some (0x501#32, 0x401#30, 0x1#32, 0x0#32) :=
  by decide +kernel
/-- V43-6. -/
theorem test_lessthanorequal_order :
    seen (step (testState 0x25#8 0x500#32 [0x2#32, 0x1#32])) view2 = some (0x501#32, 0x401#30, 0x0#32, 0x0#32) :=
  by decide +kernel
/-- V43-9. -/
theorem test_ulessthan :
    seen (step (testState 0x26#8 0x500#32 [0x1#32, 0xFFFFFFFF#32])) view2 =
      some (0x501#32, 0x401#30, 0x1#32, 0x0#32) :=
  by decide +kernel
/-- V43-10. -/
theorem test_ulessthan_equal :
    seen (step (testState 0x26#8 0x500#32 [0x5#32, 0x5#32])) view2 = some (0x501#32, 0x401#30, 0x0#32, 0x0#32) :=
  by decide +kernel
/-- V43-11. -/
theorem test_ulessthanorequal :
    seen (step (testState 0x27#8 0x500#32 [0x80000000#32, 0x7FFFFFFF#32])) view2 =
      some (0x501#32, 0x401#30, 0x0#32, 0x0#32) :=
  by decide +kernel
/-- V43-12. -/
theorem test_ulessthanorequal_equal :
    seen (step (testState 0x27#8 0x500#32 [0x5#32, 0x5#32])) view2 = some (0x501#32, 0x401#30, 0x1#32, 0x0#32) :=
  by decide +kernel
/-- V43-16. -/
theorem test_mult :
    seen (step (testState 0x29#8 0x500#32 [0x12345678#32, 0x9ABCDEF0#32])) view2 =
      some (0x501#32, 0x401#30, 0x242D2080#32, 0x0#32) :=
  by decide +kernel
/-- V43-17. -/
theorem test_lshiftright :
    seen (step (testState 0x2A#8 0x500#32 [0x4#32, 0x80000000#32, 0x9#32])) view2 =
      some (0x501#32, 0x401#30, 0x8000000#32, 0x9#32) :=
  by decide +kernel
/-- V43-20. -/
theorem test_lshiftright_by_32 :
    seen (step (testState 0x2A#8 0x500#32 [0x20#32, 0x80000000#32])) view2 =
      some (0x501#32, 0x401#30, 0x0#32, 0x0#32) :=
  by decide +kernel
/-- V43-22. -/
theorem test_ashiftleft :
    seen (step (testState 0x2B#8 0x500#32 [0x4#32, 0xF000001#32])) view2 =
      some (0x501#32, 0x401#30, 0xF0000010#32, 0x0#32) :=
  by decide +kernel
/-- V43-24. -/
theorem test_ashiftleft_by_32 :
    seen (step (testState 0x2B#8 0x500#32 [0x20#32, 0x1#32])) view2 = some (0x501#32, 0x401#30, 0x0#32, 0x0#32) :=
  by decide +kernel
/-- V43-26. -/
theorem test_ashiftright :
    seen (step (testState 0x2C#8 0x500#32 [0x4#32, 0x80000000#32])) view2 =
      some (0x501#32, 0x401#30, 0xF8000000#32, 0x0#32) :=
  by decide +kernel
/-- V43-29. -/
theorem test_ashiftright_by_40 :
    seen (step (testState 0x2C#8 0x500#32 [0x28#32, 0x80000000#32])) view2 =
      some (0x501#32, 0x401#30, 0xFFFFFFFF#32, 0x0#32) :=
  by decide +kernel
/-- V43-32. -/
theorem test_call :
    seen (step (testState 0x2D#8 0x500#32 [0x12345#32, 0x5#32])) view2 =
      some (0x2345#32, 0x400#30, 0x501#32, 0x5#32) :=
  by decide +kernel
/-- V43-34. -/
theorem test_eq :
    seen (step (testState 0x2E#8 0x500#32 [0x5#32, 0x5#32, 0x9#32])) view2 =
      some (0x501#32, 0x401#30, 0x1#32, 0x9#32) :=
  by decide +kernel
/-- V43-36. -/
theorem test_neq :
    seen (step (testState 0x2F#8 0x500#32 [0x5#32, 0x5#32, 0x9#32])) view2 =
      some (0x501#32, 0x401#30, 0x0#32, 0x9#32) :=
  by decide +kernel
/-- V43-38. -/
theorem test_neg :
    seen (step (testState 0x30#8 0x500#32 [0x5#32, 0x9#32])) view2 =
      some (0x501#32, 0x400#30, 0xFFFFFFFB#32, 0x9#32) :=
  by decide +kernel
/-- V43-41. -/
theorem test_sub :
    seen (step (testState 0x31#8 0x500#32 [0x3#32, 0xA#32, 0x9#32])) view2 =
      some (0x501#32, 0x401#30, 0x7#32, 0x9#32) :=
  by decide +kernel
/-- V43-43. -/
theorem test_xor :
    seen (step (testState 0x32#8 0x500#32 [0xFF00FF00#32, 0xFF00FF0#32, 0x9#32])) view2 =
      some (0x501#32, 0x401#30, 0xF0F0F0F0#32, 0x9#32) :=
  by decide +kernel
/-- V44-2. -/
theorem test_loadb :
    seen (step (testState 0x33#8 0x500#32 [0x2001#32, 0x5#32])) view2 = some (0x501#32, 0x400#30, 0x22#32, 0x5#32) :=
  by decide +kernel
/-- V44-4. -/
theorem test_loadb_stack_cache_hazard :
    refusalOf (step (testState 0x33#8 0x500#32 [0x1007#32, 0x5#32])) = some .stackCacheHazard :=
  by decide +kernel
/-- V44-7. -/
theorem test_loadh :
    seen (step (testState 0x22#8 0x500#32 [0x2002#32, 0x5#32])) view2 =
      some (0x501#32, 0x400#30, 0x3344#32, 0x5#32) :=
  by decide +kernel
/-- V44-8. -/
theorem test_loadh_misaligned :
    refusalOf (step (testState 0x22#8 0x500#32 [0x2001#32, 0x5#32])) = some .misaligned :=
  by decide +kernel
/-- V44-9. -/
theorem test_storeb :
    seen (step (testState 0x34#8 0x500#32 [0x2003#32, 0xAABBCCDD#32, 0x5#32]))
        (fun t => (t.sp, t.mem.readWord .big 0x2000)) =
      some (0x402#30, 0x112233DD#32) :=
  by decide +kernel
/-- V44-12. -/
theorem test_storeh :
    seen (step (testState 0x23#8 0x500#32 [0x2002#32, 0xAABBCCDD#32, 0x5#32]))
        (fun t => (t.sp, t.mem.readWord .big 0x2000)) =
      some (0x402#30, 0x1122CCDD#32) :=
  by decide +kernel
/-- V44-16, the handbook's 5 / -3. -/
theorem test_div :
    seen (step (testState 0x35#8 0x500#32 [0xFFFFFFFD#32, 0x5#32, 0x8#32])) view2 =
      some (0x501#32, 0x401#30, 0xFFFFFFFF#32, 0x8#32) :=
  by decide +kernel
/-- V44-23: `pc`, `sp` and the draw of the free result. -/
theorem test_div_by_zero_goes_on :
    seen (step (testState 0x35#8 0x500#32 [0x0#32, 0x5#32, 0x8#32])) (fun t => (t.pc, t.sp, t.freeDraws)) =
      some (0x501#32, 0x401#30, 1) :=
  by decide +kernel
/-- V44-28, the handbook's -5 % 3. -/
theorem test_mod :
    seen (step (testState 0x36#8 0x500#32 [0x3#32, 0xFFFFFFFB#32, 0x8#32])) view2 =
      some (0x501#32, 0x401#30, 0xFFFFFFFE#32, 0x8#32) :=
  by decide +kernel
/-- V44-27, the handbook's 5 % -3. -/
theorem test_mod_of_negative_divisor :
    seen (step (testState 0x36#8 0x500#32 [0xFFFFFFFD#32, 0x5#32, 0x8#32])) view2 =
      some (0x501#32, 0x401#30, 0x2#32, 0x8#32) :=
  by decide +kernel
/-- V44-37. -/
theorem test_eqbranch_taken :
    seen (step (testState 0x37#8 0x100#32 [0xFFFFFFF0#32, 0x0#32, 0x7#32])) view2 =
      some (0xF0#32, 0x402#30, 0x7#32, 0x0#32) :=
  by decide +kernel
/-- V44-36. -/
theorem test_eqbranch_not_taken :
    seen (step (testState 0x37#8 0x100#32 [0x10#32, 0x3#32, 0x7#32])) view2 =
      some (0x101#32, 0x402#30, 0x7#32, 0x0#32) :=
  by decide +kernel
/-- V44-38. -/
theorem test_neqbranch_taken :
    seen (step (testState 0x38#8 0x100#32 [0xFFFFFFFC#32, 0x1#32, 0x7#32])) view2 =
      some (0xFC#32, 0x402#30, 0x7#32, 0x0#32) :=
  by decide +kernel
/-- V44-39. -/
theorem test_neqbranch_not_taken :
    seen (step (testState 0x38#8 0x100#32 [0xFFFFFFFC#32, 0x0#32, 0x7#32])) view2 =
      some (0x101#32, 0x402#30, 0x7#32, 0x0#32) :=
  by decide +kernel
/-- V44-42. -/
theorem test_poppcrel_wraps :
    seen (step (testState 0x39#8 0x4#32 [0xFFFFFFF8#32, 0x7#32])) view2 =
      some (0xFFFC#32, 0x401#30, 0x7#32, 0x0#32) :=
  by decide +kernel
/-- V44-43. -/
theorem test_pushpc :
    seen (step (testState 0x3B#8 0x123#32 [0x7#32])) view2 = some (0x124#32, 0x3FF#30, 0x123#32, 0x7#32) :=
  by decide +kernel
/-- V44-44. -/
theorem test_pushspadd :
    seen (step (testState 0x3D#8 0x500#32 [0x3#32, 0xA#32, 0x14#32, 0x1E#32])) view2 =
      some (0x501#32, 0x400#30, 0x100C#32, 0xA#32) :=
  by decide +kernel
/-- V44-49. -/
theorem test_callpcrel :
    seen (step (testState 0x3F#8 0x410#32 [0xFFFFFFF0#32, 0x5#32])) view2 =
      some (0x400#32, 0x400#30, 0x411#32, 0x5#32) :=
  by decide +kernel
/-- R213 with both extensions: the halves 0xFFFF and 2 give 0x1FFFE zero-extended and -2 sign-extended. -/
theorem test_halfmult_zero :
    seen (step (testStateIn allBuilt 0#32 0x3E#8 0x500#32 [0xABCDFFFF#32, 2#32])) (fun t => t.cell 0#30) =
      some 0x1FFFE#32 :=
  by decide +kernel
/-- R213, HALFMULT_EXT = sign. -/
theorem test_halfmult_sign :
    seen (step (testStateIn { allBuilt with halfmultExt := .sign } 0#32 0x3E#8 0x500#32 [0xABCDFFFF#32, 2#32]))
      (fun t => t.cell 0#30) = some 0xFFFFFFFE#32 :=
  by decide +kernel
/-- The check of program P1: "With `BYTE_ORDER` little the LOADB would give 0x33". -/
theorem test_byte_order_little :
    (Memory.writeWord [] .little 0x2000 0x11223344#32).read 0x2001 = 0x33#8 := by decide +kernel
/-- V60-1: the fetch past the end of the map. -/
theorem test_fetch_unmapped :
    faultOf (step (testStateIn holedMap 0#32 0x0B#8 0x8000#32 [])) = some .unmapped := by decide +kernel
/-- V60-9. -/
theorem test_reset :
    (State.reset.pc, State.reset.sp, State.reset.idim, State.reset.breakLine, State.reset.breakEvents) =
    (0x400#32, 0x400#30, false, false, []) := by decide
theorem test_core_step_is_step : Sys2Proof.core.step = step := rfl
theorem test_withFetchWord_is_run :
    step (State.reset.withFetchWord 8 0x0B) = exec .nop (State.reset.withFetchWord 8 0x0B) :=
  rfl

/-! ### Witnesses: states and operands that meet the hypotheses of the statements -/

/-- Enough cells for the largest offset: `Stk[k] = 100 + k` for k below 33. -/
def deepStack : State := testState 0x0B#8 0x500#32 ((List.range 33).map fun k => BitVec.ofNat 32 (100 + k))

/-- A well-formed state with every optional opcode built, and one with none. -/
def builtState (stack : List Word) : State := testStateIn allBuilt 0x11223344#32 0x0B#8 0x500#32 stack
def unbuiltState (stack : List Word) : State := testStateIn noneBuilt 0x11223344#32 0x0B#8 0x500#32 stack

theorem witness_DecodeOfEncodeIsTheInstruction :
    (Instr.storesp 2#5).wellFormed = true ∧ (Instr.loadsp 31#5).wellFormed = true ∧
      (Instr.im 127#7).wellFormed = true :=
  by decide
theorem witness_OptionalOpcodeIsBuiltOrEmulated_built :
    isOptionalOpcode 0x3F#8 = true ∧ (builtState []).cfg.builds 0x3F = true :=
  by decide +kernel
theorem witness_OptionalOpcodeIsBuiltOrEmulated_unbuilt :
    isOptionalOpcode 0x20#8 = true ∧ (builtState []).cfg.builds 0x20 = false ∧ (builtState []).pushReady = true :=
  by decide +kernel
theorem witness_StepRunsTheDecodedInstruction :
    deepStack.runEnded = false ∧ deepStack.plain deepStack.pc.toNat 1 = true ∧
      decode (deepStack.mem.read deepStack.pc.toNat) = .nop :=
  by decide +kernel
theorem witness_StepStopsAtTheEndAndAtUnmappedCode_ended : { deepStack with runEnded := true }.runEnded = true := rfl
theorem witness_StepStopsAtTheEndAndAtUnmappedCode_unmapped :
    (testStateIn holedMap 0#32 0#8 0x8000#32 []).runEnded = false ∧
      (testStateIn holedMap 0#32 0#8 0x8000#32 []).mapped 0x8000 1 = false :=
  by decide +kernel
theorem witness_EveryStepKeepsTheStateWellFormed :
    deepStack.wf = true ∧ ∃ t, step deepStack = .next t :=
  ⟨by decide +kernel, goes_on (by decide +kernel)⟩
theorem witness_EveryStepKeepsTheStateWellFormed_unbuilt :
    (unbuiltState [7#32]).wf = true ∧ ∃ t, step (unbuiltState [7#32]) = .next t :=
  ⟨by decide +kernel, goes_on (by decide +kernel)⟩
theorem witness_ResetIsWellFormed_L10 :
    let c := { Config.default with addrBits := 10, memMap := defaultMemMap 10 }
    c.wf = true ∧ (BitVec.ofNat 32 (2 ^ 10 - 1)).toNat < 2 ^ 10 ∧ (BitVec.ofNat 30 (2 ^ 8 - 1)).toNat < 2 ^ 8 ∧
      Memory.wf [(2 ^ 10 - 1, 1#8)] = true ∧
      ∀ cell ∈ ([(2 ^ 10 - 1, 1#8)] : Memory), regionAt c.memMap cell.1 = some .plain :=
  by decide +kernel
theorem witness_ResetIsWellFormed_L32 :
    let c := { Config.default with addrBits := 32, memMap := defaultMemMap 32 }
    c.wf = true ∧ (BitVec.ofNat 32 (2 ^ 32 - 1)).toNat < 2 ^ 32 ∧ (BitVec.ofNat 30 (2 ^ 30 - 1)).toNat < 2 ^ 30 ∧
      Memory.wf [(2 ^ 32 - 1, 1#8)] = true ∧
      ∀ cell ∈ ([(2 ^ 32 - 1, 1#8)] : Memory), regionAt c.memMap cell.1 = some .plain :=
  by decide +kernel
theorem witness_IdimIsSetAndReadOnlyByIm :
    (∃ t, exec (.im 127#7) deepStack = .next t) ∧ (∃ t, exec .nop deepStack = .next t) ∧ ∀ x, Instr.nop ≠ .im x :=
  ⟨goes_on (by decide +kernel), goes_on (by decide +kernel), nofun⟩
theorem witness_BreakOutputComesOnlyFromBreakpoint :
    (∃ t, exec .breakpoint deepStack = .next t) ∧ ∃ t, exec .add deepStack = .next t :=
  ⟨goes_on (by decide +kernel), goes_on (by decide +kernel)⟩
theorem witness_ParametersNeverChange_frame :
    (∃ t, exec .add deepStack = .next t) ∧ Instr.add ≠ .breakpoint ∧ Instr.add ≠ .div ∧ Instr.add ≠ .mod :=
  ⟨goes_on (by decide +kernel), by decide, by decide, by decide⟩
theorem witness_ParametersNeverChange_draws :
    ∃ t, exec .div (builtState [0#32, 5#32]) = .next t :=
  goes_on (by decide +kernel)
/-- The bytes just below and just above the four stored ones are outside them. -/
theorem witness_BytesOutsideTheFootprintAreKept :
    (∃ t, exec .store (builtState [0x2000#32, 7#32]) = .next t) ∧
      footprint .store (builtState [0x2000#32, 7#32]) = (0x2000, 4) ∧ outside 0x1FFF 0x2000 4 ∧
      outside 0x2004 0x2000 4 :=
  ⟨goes_on (by decide +kernel), by decide +kernel, .inl (by decide), .inr (by decide)⟩
theorem witness_EveryStoreIsPermitted :
    (∃ t, exec .storeb (builtState [0x2000#32, 7#32]) = .next t) ∧
      (footprint .storeb (builtState [0x2000#32, 7#32])).2 ≠ 0 :=
  ⟨goes_on (by decide +kernel), by decide +kernel⟩
theorem witness_StraightLineAdvancesPcByOne_core :
    (builtState [3#32, 4#32]).cfg.wf = true ∧ (∃ t, exec .add (builtState [3#32, 4#32]) = .next t) ∧
      (∀ x, Instr.add ≠ .emulate x) ∧
      Instr.add ∉ [Instr.poppc, .call, .eqbranch, .neqbranch, .poppcrel, .callpcrel] ∧
      isOptionalOpcode (encode .add) = false :=
  ⟨by decide, goes_on (by decide +kernel), nofun, by decide, by decide⟩
theorem witness_StraightLineAdvancesPcByOne_optional :
    (builtState [3#32, 4#32]).cfg.wf = true ∧ (∃ t, exec .sub (builtState [3#32, 4#32]) = .next t) ∧
      (∀ x, Instr.sub ≠ .emulate x) ∧
      Instr.sub ∉ [Instr.poppc, .call, .eqbranch, .neqbranch, .poppcrel, .callpcrel] ∧
      isOptionalOpcode (encode .sub) = true ∧ (builtState [3#32, 4#32]).cfg.builds (encode .sub).toNat = true :=
  ⟨by decide, goes_on (by decide +kernel), nofun, by decide, by decide, by decide⟩
theorem witness_ImPushesOrExtendsTheTop_first : deepStack.idim = false ∧ deepStack.pushReady = true := by decide +kernel
theorem witness_ImPushesOrExtendsTheTop_next :
    { deepStack with idim := true }.idim = true ∧ State.unaryReady { deepStack with idim := true } = true :=
  by decide +kernel
/-- A run of five, the longest that a 32-bit constant takes. -/
theorem witness_ImRunPushesOneConstant :
    deepStack.wf = true ∧ deepStack.idim = false ∧ ∀ n : Nat, n ≤ [9#7, 8#7, 0x66#7, 0x44#7].length →
      State.cellWritable { deepStack with pc := wrapPc deepStack.cfg (deepStack.pc + BitVec.ofNat 32 n) } (-1#30) =
        true :=
  by decide +kernel
theorem witness_EmulateCallsItsEntry : deepStack.pushReady = true := by decide +kernel
theorem witness_OpcodesWithoutHardwareEffectCallTheirEntry : deepStack.pushReady = true := by decide +kernel
theorem witness_StorespStoresTheTopAndPops :
    deepStack.cellReadable 0#30 = true ∧ deepStack.cellWritable ((0#5).setWidth 30) = true ∧
      deepStack.cellWritable ((31#5).setWidth 30) = true ∧ deepStack.unaryReady = true ∧
      deepStack.cellWritable 1#30 = true :=
  by decide +kernel
theorem witness_PopChangesNoByteOfMemory :
    deepStack.wf = true ∧ ∃ t, exec .pop deepStack = .next t :=
  ⟨by decide +kernel, goes_on (by decide +kernel)⟩
theorem witness_LoadspPushesACell :
    deepStack.pushReady = true ∧ deepStack.cellReadable ((0#5).setWidth 30) = true ∧
      deepStack.cellReadable ((31#5).setWidth 30) = true ∧ deepStack.cellReadable 1#30 = true :=
  by decide +kernel
theorem witness_AddspAddsACellToTheTop :
    deepStack.unaryReady = true ∧ deepStack.cellReadable ((0#4).setWidth 30) = true ∧
      deepStack.cellReadable ((15#4).setWidth 30) = true ∧ deepStack.cellReadable 1#30 = true :=
  by decide +kernel
theorem witness_PushspAndPushpcPushAddresses :
    (builtState []).pushReady = true ∧ (builtState []).cfg.builds 59 = true ∧ (unbuiltState []).pushReady = true ∧
      (unbuiltState []).cfg.builds 59 = false :=
  by decide +kernel
theorem witness_PoppcAndPoppcrelJump :
    (builtState [9#32]).cellReadable 0#30 = true ∧ (builtState [9#32]).cfg.builds 57 = true ∧
      (unbuiltState []).cfg.builds 57 = false :=
  by decide +kernel
theorem witness_AddAndOrCombineTheTopCells : (builtState [3#32, 4#32]).binaryReady = true := by decide +kernel
theorem witness_NotFlipNegReplaceTheTop :
    (builtState [3#32]).unaryReady = true ∧ (builtState [3#32]).cfg.builds 48 = true ∧
      (unbuiltState []).cfg.builds 48 = false :=
  by decide +kernel
/-- LOAD at the last aligned word below the two cached cells and at the first above them. -/
theorem witness_LoadsReplaceTheAddressByTheData_load :
    ∀ a ∈ [0x0FFC#32, 0x1008#32], (builtState [a]).unaryReady = true ∧ ((builtState [a]).cell 0#30).toNat % 4 = 0 ∧
      (builtState [a]).hitsCachedCells ((builtState [a]).cell 0#30).toNat 4 = false ∧
      (builtState [a]).plain ((builtState [a]).cell 0#30).toNat 4 = true :=
  forall_two (by decide +kernel) (by decide +kernel)
theorem witness_LoadsReplaceTheAddressByTheData_loadb :
    ∀ a ∈ [0x0FFF#32, 0x1008#32], (builtState [a]).cfg.builds 51 = true ∧ (builtState [a]).unaryReady = true ∧
      (builtState [a]).hitsCachedCells ((builtState [a]).cell 0#30).toNat 1 = false ∧
      (builtState [a]).plain ((builtState [a]).cell 0#30).toNat 1 = true :=
  forall_two (by decide +kernel) (by decide +kernel)
theorem witness_LoadsReplaceTheAddressByTheData_loadh :
    ∀ a ∈ [0x0FFE#32, 0x1008#32], (builtState [a]).cfg.builds 34 = true ∧ (builtState [a]).unaryReady = true ∧
      ((builtState [a]).cell 0#30).toNat % 2 = 0 ∧
      (builtState [a]).hitsCachedCells ((builtState [a]).cell 0#30).toNat 2 = false ∧
      (builtState [a]).plain ((builtState [a]).cell 0#30).toNat 2 = true :=
  forall_two (by decide +kernel) (by decide +kernel)
/-- STORE at the words on both sides of the word being executed (0x500) and at the last word of memory. -/
theorem witness_StoresWriteTheDataAndPopTwo_store :
    ∀ a ∈ [0x04FC#32, 0x0504#32, 0xFFFC#32], (builtState [a, 7#32]).cellReadable 0#30 = true ∧
      (builtState [a, 7#32]).cellReadable 1#30 = true ∧ ((builtState [a, 7#32]).cell 0#30).toNat % 4 = 0 ∧
      (builtState [a, 7#32]).writable ((builtState [a, 7#32]).cell 0#30).toNat 4 = true :=
  forall_three (by decide +kernel) (by decide +kernel) (by decide +kernel)
theorem witness_StoresWriteTheDataAndPopTwo_storeb :
    ∀ a ∈ [0x04FF#32, 0x0504#32, 0xFFFF#32], (builtState [a, 7#32]).cellReadable 0#30 = true ∧
      (builtState [a, 7#32]).cellReadable 1#30 = true ∧ (builtState [a, 7#32]).cfg.builds 52 = true ∧
      (builtState [a, 7#32]).writable ((builtState [a, 7#32]).cell 0#30).toNat 1 = true :=
  forall_three (by decide +kernel) (by decide +kernel) (by decide +kernel)
theorem witness_StoresWriteTheDataAndPopTwo_storeh :
    ∀ a ∈ [0x04FE#32, 0x0504#32, 0xFFFE#32], (builtState [a, 7#32]).cellReadable 0#30 = true ∧
      (builtState [a, 7#32]).cellReadable 1#30 = true ∧ (builtState [a, 7#32]).cfg.builds 35 = true ∧
      ((builtState [a, 7#32]).cell 0#30).toNat % 2 = 0 ∧
      (builtState [a, 7#32]).writable ((builtState [a, 7#32]).cell 0#30).toNat 2 = true :=
  forall_three (by decide +kernel) (by decide +kernel) (by decide +kernel)
theorem witness_LoadsAndStores_unbuilt : ∀ op ∈ [34, 35, 51, 52], (unbuiltState []).cfg.builds op = false := by decide
theorem witness_PopspLoadsSp : (builtState [0x2003#32]).cellReadable 0#30 = true := by decide +kernel
theorem witness_ComparisonsLeaveOneOrZero :
    (builtState [31#32, 4#32]).binaryReady = true ∧
      (∀ op ∈ [36, 37, 38, 39], (builtState [31#32, 4#32]).cfg.builds op = true) ∧
      ∀ op ∈ [36, 37, 38, 39], (unbuiltState []).cfg.builds op = false :=
  by decide +kernel
theorem witness_EqAndNeqCompareAllBits :
    (builtState [31#32, 4#32]).binaryReady = true ∧
      (∀ op ∈ [46, 47], (builtState [31#32, 4#32]).cfg.builds op = true) ∧
      ∀ op ∈ [46, 47], (unbuiltState []).cfg.builds op = false :=
  by decide +kernel
theorem witness_MultSubXorCombineTheTopCells :
    (builtState [31#32, 4#32]).binaryReady = true ∧
      (∀ op ∈ [41, 49, 50], (builtState [31#32, 4#32]).cfg.builds op = true) ∧
      ∀ op ∈ [41, 49, 50], (unbuiltState []).cfg.builds op = false :=
  by decide +kernel
theorem witness_ShiftsUseTheWholeCount :
    (builtState [31#32, 4#32]).binaryReady = true ∧
      (∀ op ∈ [42, 43, 44], (builtState [31#32, 4#32]).cfg.builds op = true) ∧
      ∀ op ∈ [42, 43, 44], (unbuiltState []).cfg.builds op = false :=
  by decide +kernel
theorem witness_CallsReplaceTheTargetByTheReturnAddress :
    (builtState [9#32]).unaryReady = true ∧ (∀ op ∈ [45, 63], (builtState [9#32]).cfg.builds op = true) ∧
      ∀ op ∈ [45, 63], (unbuiltState []).cfg.builds op = false :=
  by decide +kernel
theorem witness_BranchesTestTheSecondCellAndPopTwo :
    (builtState [9#32, 0#32]).cellReadable 0#30 = true ∧ (builtState [9#32, 0#32]).cellReadable 1#30 = true ∧
      (∀ op ∈ [55, 56], (builtState [9#32, 0#32]).cfg.builds op = true) ∧
      ∀ op ∈ [55, 56], (unbuiltState []).cfg.builds op = false :=
  by decide +kernel
theorem witness_PushspaddAddsFourTimesTheTop :
    (builtState [9#32]).cfg.builds 61 = true ∧ (builtState [9#32]).unaryReady = true ∧
      (unbuiltState []).cfg.builds 61 = false :=
  by decide +kernel
theorem witness_HalfmultMultipliesTheLowHalves :
    (builtState [9#32, 8#32]).cfg.builds 62 = true ∧ (builtState [9#32, 8#32]).binaryReady = true ∧
      (unbuiltState []).cfg.builds 62 = false :=
  by decide +kernel
/-- The operands next to the open ones: 0x80000000 by 1 and 0x80000001 by -1. -/
theorem witness_DivAndModRoundTowardZero :
    ∀ p ∈ [(1#32, 0x80000000#32), (0xFFFFFFFF#32, 0x80000001#32)], (builtState [p.1, p.2]).binaryReady = true ∧
      (builtState [p.1, p.2]).cell 0#30 ≠ 0#32 ∧
      ¬((builtState [p.1, p.2]).cell 1#30 = 0x80000000#32 ∧ (builtState [p.1, p.2]).cell 0#30 = 0xFFFFFFFF#32) ∧
      (builtState [p.1, p.2]).cfg.builds 53 = true ∧ (builtState [p.1, p.2]).cfg.builds 54 = true :=
  forall_two (by decide +kernel) (by decide +kernel)
theorem witness_DivAndModRoundTowardZero_unbuilt :
    (unbuiltState []).cfg.builds 53 = false ∧ (unbuiltState []).cfg.builds 54 = false := by decide
theorem witness_OpenDivisionsRunWithAFreeValue :
    ∀ p ∈ [(0#32, 5#32), (0xFFFFFFFF#32, 0x80000000#32)], (builtState [p.1, p.2]).binaryReady = true ∧
      ((builtState [p.1, p.2]).cell 0#30 = 0#32 ∨
        ((builtState [p.1, p.2]).cell 1#30 = 0x80000000#32 ∧ (builtState [p.1, p.2]).cell 0#30 = 0xFFFFFFFF#32)) ∧
      (builtState [p.1, p.2]).cfg.builds 53 = true ∧ (builtState [p.1, p.2]).cfg.builds 54 = true :=
  forall_two (by decide +kernel) (by decide +kernel)
theorem witness_QuotientAndRemainderMakeTheDividend :
    quotient 0xFFFFFFFD#32 5#32 = some 0xFFFFFFFF#32 ∧ remainder 0xFFFFFFFD#32 5#32 = some 2#32 := by decide +kernel
/-- Each non-zero value of the low address bits. -/
theorem witness_MisalignedDataAddressIsRefused_word :
    ∀ a ∈ [0x2001#32, 0x2002#32, 0x2003#32], (builtState [a, 7#32]).cellReadable 0#30 = true ∧
      ((builtState [a, 7#32]).cell 0#30).extractLsb' 0 2 ≠ 0#2 ∧ (builtState [a, 7#32]).cellReadable 1#30 = true :=
  forall_three (by decide +kernel) (by decide +kernel) (by decide +kernel)
theorem witness_MisalignedDataAddressIsRefused_half :
    ∀ a ∈ [0x2001#32, 0x2003#32], (builtState [a, 7#32]).cellReadable 0#30 = true ∧
      ((builtState [a, 7#32]).cell 0#30).getLsbD 0 = true ∧ (builtState [a, 7#32]).cellReadable 1#30 = true ∧
      (builtState [a, 7#32]).cfg.builds 34 = true ∧ (builtState [a, 7#32]).cfg.builds 35 = true :=
  forall_two (by decide +kernel) (by decide +kernel)
/-- The first of the eight bytes, read by the last byte of a misaligned LOAD; the aligned LOADs; the last byte. -/
theorem witness_StackCacheHazardIsRefused_load :
    ((builtState [0x0FFD#32]).cellReadable 0#30 = true ∧
      ((builtState [0x0FFD#32]).cell 0#30).toNat + 3 = (builtState [0x0FFD#32]).sa 0#30 + 0) ∧
    ((builtState [0x1004#32]).cellReadable 0#30 = true ∧ ((builtState [0x1004#32]).cell 0#30).toNat % 4 = 0 ∧
      ((builtState [0x1004#32]).cell 0#30).toNat + 3 = (builtState [0x1004#32]).sa 1#30 + 3) :=
  by decide +kernel
theorem witness_StackCacheHazardIsRefused_loadh :
    (builtState [0x0FFF#32]).cfg.builds 34 = true ∧ (builtState [0x0FFF#32]).cellReadable 0#30 = true ∧
      ((builtState [0x0FFF#32]).cell 0#30).toNat + 1 = (builtState [0x0FFF#32]).sa 0#30 + 0 ∧
      (builtState [0x1006#32]).cellReadable 0#30 = true ∧ ((builtState [0x1006#32]).cell 0#30).toNat % 2 = 0 ∧
      ((builtState [0x1006#32]).cell 0#30).toNat + 1 = (builtState [0x1006#32]).sa 1#30 + 3 :=
  by decide +kernel
theorem witness_StackCacheHazardIsRefused_loadb :
    (builtState [0x1007#32]).cfg.builds 51 = true ∧ (builtState [0x1007#32]).cellReadable 0#30 = true ∧
      ((builtState [0x1007#32]).cell 0#30).toNat = (builtState [0x1007#32]).sa 1#30 + 3 ∧
      ((builtState [0x1000#32]).cell 0#30).toNat = (builtState [0x1000#32]).sa 0#30 + 0 :=
  by decide +kernel
/-- V41-21: the pushed cell is bytes 0x0FFC to 0x0FFF; `pc` at both ends of it. -/
theorem witness_PushIntoExecutingWordOrUnmappedCellStops_executing :
    ∀ p ∈ [0x0FFC#32, 0x0FFF#32],
      let s : State := testState 0#8 p [5#32]
      s.plain (s.sa (-1#30)) 4 = true ∧ s.hitsExecutingWord (s.sa (-1#30)) 4 = true ∧ s.idim = false ∧
        s.cellReadable 0#30 = true ∧ s.cellReadable 1#30 = true ∧ s.cellReadable ((31#5).setWidth 30) = true ∧
        s.cfg.builds 59 = true ∧ isOptionalOpcode 0x20#8 = true ∧ s.cfg.builds (0x20#8).toNat = false :=
  forall_two (by decide +kernel) (by decide +kernel)
/-- V60-2. -/
theorem witness_PushIntoExecutingWordOrUnmappedCellStops_unmapped :
    let s : State := State.resetWith holedMap 0x500#32 0#30 []
    s.mapped (s.sa (-1#30)) 4 = false ∧ s.idim = false ∧ s.cellReadable 0#30 = true ∧ s.cellReadable 1#30 = true ∧
      s.cellReadable ((31#5).setWidth 30) = true ∧ s.cfg.builds 59 = true ∧ isOptionalOpcode 0x3E#8 = true ∧
      s.cfg.builds (0x3E#8).toNat = false :=
  by decide +kernel
/-- The first address beyond the map and the last multiple of 4 of all: both meet the premises of all six. -/
theorem witness_DataAddressBeyondTheMapStops :
    ∀ a ∈ [0x10000#32, 0xFFFFFFFC#32],
      let s : State := builtState [a, 7#32]
      s.wf = true ∧ s.cfg.memMap = defaultMemMap s.cfg.addrBits ∧ 2 ^ s.cfg.addrBits ≤ (s.cell 0#30).toNat ∧
        (s.cell 0#30).toNat % 4 = 0 ∧ (s.cell 0#30).toNat % 2 = 0 ∧ ∀ op ∈ [34, 35, 51, 52], s.cfg.builds op = true :=
  forall_two (by decide +kernel) (by decide +kernel)
/-- The first and the last word of the device. -/
theorem witness_DeviceDataAddressIsRefused :
    ∀ a ∈ [0x9000#32, 0x900C#32],
      let s : State := testStateIn holedMap 0#32 0x08#8 0x500#32 [a, 7#32]
      s.cellReadable 0#30 = true ∧ (s.cell 0#30).toNat % 4 = 0 ∧ s.plain (s.cell 0#30).toNat 4 = false ∧
        s.mapped (s.cell 0#30).toNat 4 = true ∧ s.hitsCachedCells (s.cell 0#30).toNat 4 = false ∧
        s.cellReadable 1#30 = true :=
  forall_two (by decide +kernel) (by decide +kernel)
theorem witness_DefaultMapHoldsEveryFetchAndStackCell :
    deepStack.wf = true ∧ deepStack.cfg.memMap = defaultMemMap deepStack.cfg.addrBits := by decide +kernel
theorem witness_StackInstructionsCompleteOnTheDefaultMap :
    deepStack.wf = true ∧ deepStack.cfg.memMap = defaultMemMap deepStack.cfg.addrBits ∧
      Instr.im 5#7 ∉ [Instr.shiftlleft, .popint, .compare, .sncpy, .load, .store, .loadb, .loadh, .storeb, .storeh] ∧
      deepStack.hitsExecutingWord (footprint (.im 5#7) deepStack).1 (footprint (.im 5#7) deepStack).2 = false :=
  by decide +kernel
theorem witness_WordsReadBackInEitherByteOrder : Memory.wf [(0, 1#8), (3, 0xFF#8)] = true := by decide
/-- The written cell and another one, over the wrap of `sp`. -/
theorem witness_WritingACellChangesThatCellOnly :
    let s : State := { deepStack with sp := 0x3FFF#30 }
    s.wf = true ∧ s.spPlus (1#30 + 0#30) = s.spPlus 1#30 ∧ s.spPlus (1#30 + 1#30) ≠ s.spPlus 1#30 :=
  by decide +kernel
theorem witness_PoppcReturnsFromCalls_emulate :
    (builtState [9#32]).wf = true ∧ ∃ t, exec (.emulate 31#5) (builtState [9#32]) = .next t :=
  ⟨by decide +kernel, goes_on (by decide +kernel)⟩
theorem witness_PoppcReturnsFromCalls_call :
    (builtState [9#32]).wf = true ∧ (builtState [9#32]).cfg.builds 45 = true ∧
      ∃ t, exec .call (builtState [9#32]) = .next t :=
  ⟨by decide +kernel, by decide, goes_on (by decide +kernel)⟩
theorem witness_PushspThenPopspRestoresSp : deepStack.wf = true ∧ ∃ t, exec .pushsp deepStack = .next t :=
  ⟨by decide +kernel, goes_on (by decide +kernel)⟩
/-- V42-24 (k = 1), and the lowest cell above the operands (k = 0). -/
theorem witness_StoreIntoTheStackIsSeenAfterThePops :
    ∀ p ∈ [(1#30, 0x100C#32), (0#30, 0x1008#32)],
      (builtState [p.2, 7#32]).wf = true ∧
      ((builtState [p.2, 7#32]).cell 0#30).toNat = (builtState [p.2, 7#32]).sa (p.1 + 2#30) ∧
      (seen (exec .store (builtState [p.2, 7#32])) fun t => t.idim).isSome = true :=
  forall_two (by decide +kernel) (by decide +kernel)

end Sys2Proof.Machine
end

section
/-! The scope of the machine (spec/00_scope.md): its parameters never change, its stack cells do not overlap, and every
step keeps the invariant `State.wf`. -/

namespace Sys2Proof.Machine

/-! ### The invariant, part by part -/

/-- A configuration the spec allows has at most 32 address bits (R8). -/
theorem addrBits_le_of_wf {c : Config} (h : c.wf = true) : c.addrBits ≤ 32 := by
  simp only [Config.wf, Bool.and_eq_true, decide_eq_true_eq] at h
  obtain ⟨⟨⟨-, hle⟩, -⟩, -⟩ := h
  exact hle

theorem cellsPlain_iff {s : State} :
    s.cellsPlain = true ↔ ∀ c ∈ s.mem, regionAt s.cfg.memMap c.1 = some .plain := by
  simp [State.cellsPlain]

theorem wf_iff {s : State} :
    s.wf = true ↔ s.cfg.wf = true ∧ s.pc.toNat < 2 ^ s.cfg.addrBits ∧ s.sp.toNat < 2 ^ (s.cfg.addrBits - 2) ∧
      s.mem.wf = true ∧ s.cellsPlain = true := by
  simp only [State.wf, Bool.and_eq_true, decide_eq_true_eq, and_assoc]

/-- A permitted store lists only bytes of plain memory (R47). -/
theorem cells_of_writeList_plain {s : State} {a : Nat} {bytes : List Byte} (hs : s.cellsPlain = true)
    (hw : bytes.length ≠ 0 → s.writable a bytes.length = true) :
    ∀ c ∈ s.mem.writeList a bytes, regionAt s.cfg.memMap c.1 = some .plain := by
  intro c hc
  rcases mem_writeList_cells hc with hold | ⟨hlo, hhi⟩
  · exact cellsPlain_iff.mp hs c hold
  · obtain ⟨hplain, -⟩ := writable_iff.mp (hw (by omega))
    have := regionAt_of_plain hplain (i := c.1 - a) (by omega)
    rwa [Nat.add_sub_cancel' hlo] at this

/-! ### The invariant, step by step -/

/-- Whatever an instruction leaves of a state with the invariant has it: `pc` and `sp` are cut to their widths, and
bytes are stored to plain memory only. -/
theorem wf_of_leaves {i : Instr} {s t : State} (hs : s.wf = true) (h : Leaves i s t) : t.wf = true := by
  obtain ⟨hcfg, -, hsp, hmem, hplain⟩ := wf_iff.mp hs
  obtain ⟨p, q, bytes, d, hlen, hw, hq, -, rfl⟩ := h
  have hle := addrBits_le_of_wf hcfg
  have hq' : q.toNat < 2 ^ (s.cfg.addrBits - 2) := by
    rcases hq with rfl | ⟨k, rfl⟩
    · exact hsp
    · exact wrapSp_toNat_lt (by omega) k
  rw [← hlen] at hw
  exact wf_iff.mpr ⟨hcfg, wrapPc_toNat_lt hle p, hq', wf_writeList hmem _ _,
    cellsPlain_iff.mpr (cells_of_writeList_plain hplain hw)⟩

theorem exec_keeps_wf {i : Instr} {s t : State} (hs : s.wf = true) (h : exec i s = .next t) : t.wf = true :=
  wf_of_leaves hs (leaves_of_exec_eq_next h)

/-- Settles O8: a step that goes on executes one instruction, and every instruction keeps the invariant. -/
theorem everyStepKeepsTheStateWellFormed : Obligations.EveryStepKeepsTheStateWellFormed :=
  fun _ _ hs h => exec_keeps_wf hs (exec_of_step_eq_next h)

/-! ### The parameters and the model's own fields -/

/-- Settles O13, from what an instruction can leave (`Leaves`). -/
theorem parametersNeverChange : Obligations.ParametersNeverChange := by
  intro i s t h
  obtain ⟨p, q, bytes, d, -, -, -, hd, rfl⟩ := leaves_of_exec_eq_next h
  refine ⟨rfl, fun hb => if_neg hb, fun hdiv hmod => ?_, ?_⟩
  · rcases hd with hsame | ⟨-, rfl | rfl⟩
    · exact hsame
    · exact absurd rfl hdiv
    · exact absurd rfl hmod
  · exact hd.imp_right And.left

/-! ### Cells of the stack -/

theorem sa_eq (s : State) (k : CellIndex) : s.sa k = 4 * (s.spPlus k).toNat := rfl

/-- The cells counted from the new `sp` are the old cells, shifted by the move. -/
theorem sa_landing_spPlus (s : State) (p : Word) (d : CellIndex) (m : Memory) (j : CellIndex) :
    (s.landing p (s.spPlus d) m).sa j = s.sa (d + j) :=
  sa_moveSp s d j

/-- Cells of different indices share no byte. -/
theorem sa_disjoint {s : State} {k j : CellIndex} (h : s.spPlus j ≠ s.spPlus k) :
    s.sa j + 4 ≤ s.sa k ∨ s.sa k + 4 ≤ s.sa j := by
  have hne : (s.spPlus j).toNat ≠ (s.spPlus k).toNat := fun e => h (BitVec.eq_of_toNat_eq e)
  rw [sa_eq, sa_eq]
  omega

/-- A word read beside a written word is the old one. -/
theorem readWord_writeWord_of_disjoint (m : Memory) (o : ByteOrder) {a b : Nat} (v : Word)
    (h : b + 4 ≤ a ∨ a + 4 ≤ b) : (m.writeWord o a v).readWord o b = m.readWord o b := by
  have hread {c : Nat} (hlo : b ≤ c) (hhi : c < b + 4) : (m.writeWord o a v).read c = m.read c :=
    read_writeList_outside m a _ (by rw [wordBytes_length, outside]; omega)
  have h0 := hread (c := b) (by omega) (by omega)
  have h1 := hread (c := b + 1) (by omega) (by omega)
  have h2 := hread (c := b + 2) (by omega) (by omega)
  have h3 := hread (c := b + 3) (by omega) (by omega)
  cases o <;> simp only [Memory.readWord, h0, h1, h2, h3]

/-- Settles O53: the cell `j` of the new state is at the address of the old cell `d + j`, which is the written cell's
or shares no byte with it. -/
theorem writingACellChangesThatCellOnly : Obligations.WritingACellChangesThatCellOnly := by
  intro s k d j v p hs
  obtain ⟨-, -, -, hmem, -⟩ := wf_iff.mp hs
  rw [State.cell, sa_landing_spPlus, landing_mem, landing_cfg, State.memWithCell]
  split
  next heq =>
    have hsa : s.sa (d + j) = s.sa k := by rw [sa_eq, sa_eq, heq]
    rw [hsa]
    exact readWord_writeWord hmem _ _ v
  next hne => exact readWord_writeWord_of_disjoint _ _ v (sa_disjoint hne)

end Sys2Proof.Machine
end

section
/-! The two outputs `idim` and `break` (spec/10_state.md R24, R26): what every instruction leaves in them, and that
their levels are not read, but for `idim` by IM. -/

namespace Sys2Proof.Machine

/-! ### The state with other outputs -/

/-- The same state with other levels of the two outputs. -/
def State.withOutputs (s : State) (d b : Bool) : State := { s with idim := d, breakLine := b }

section
variable (s : State) (d b : Bool)

@[simp] theorem withOutputs_cfg : (s.withOutputs d b).cfg = s.cfg := rfl
@[simp] theorem withOutputs_pc : (s.withOutputs d b).pc = s.pc := rfl
@[simp] theorem withOutputs_idim : (s.withOutputs d b).idim = d := rfl
@[simp] theorem nextPc_withOutputs : (s.withOutputs d b).nextPc = s.nextPc := rfl
@[simp] theorem access_withOutputs (a n : Nat) : (s.withOutputs d b).access a n = s.access a n := rfl
@[simp] theorem readStk_withOutputs (k : CellIndex) : (s.withOutputs d b).readStk k = s.readStk k := rfl
@[simp] theorem dataAt_withOutputs (w : Width) (a : Nat) : (s.withOutputs d b).dataAt w a = s.dataAt w a := rfl
@[simp] theorem hitsCachedCells_withOutputs (a n : Nat) :
    (s.withOutputs d b).hitsCachedCells a n = s.hitsCachedCells a n := rfl
@[simp] theorem moveSp_withOutputs (k : CellIndex) : (s.withOutputs d b).moveSp k = (s.moveSp k).withOutputs d b := rfl

/-! ### The common tail sets both outputs, whatever they were -/

@[simp] theorem retire_withOutputs (p : Word) (e : Bool) : (s.withOutputs d b).retire p e = s.retire p e := rfl
@[simp] theorem finish_withOutputs : (s.withOutputs d b).finish = s.finish := rfl
@[simp] theorem jump_withOutputs (p : Word) : (s.withOutputs d b).jump p = s.jump p := rfl

/-! ### The operations before the tail carry the outputs along -/

@[simp] theorem settle_withOutputs (r : Option Word) :
    (s.withOutputs d b).settle r = ((s.settle r).1, (s.settle r).2.withOutputs d b) := by
  cases r <;> rfl

@[simp] theorem writeBytes_withOutputs (a : Nat) (bytes : List Byte) :
    (s.withOutputs d b).writeBytes a bytes = (s.writeBytes a bytes).bind fun t => .next (t.withOutputs d b) := by
  simp only [State.writeBytes, bind_assoc, bind_next]
  rfl

@[simp] theorem writeStk_withOutputs (k : CellIndex) (v : Word) :
    (s.withOutputs d b).writeStk k v = (s.writeStk k v).bind fun t => .next (t.withOutputs d b) :=
  writeBytes_withOutputs s d b _ _

@[simp] theorem push_withOutputs (v : Word) :
    (s.withOutputs d b).push v = (s.push v).bind fun t => .next (t.withOutputs d b) :=
  writeStk_withOutputs (s.moveSp (-1#30)) d b _ _

@[simp] theorem pop_withOutputs :
    (s.withOutputs d b).pop = s.pop.bind fun r => .next (r.1, r.2.withOutputs d b) := by
  simp [State.pop, bind_assoc]

/-! ### No operand form reads the outputs -/

theorem emulateCall_withOutputs (x : BitVec 5) : (s.withOutputs d b).emulateCall x = s.emulateCall x := by
  simp [State.emulateCall, bind_assoc]

theorem returnFromCall_withOutputs : (s.withOutputs d b).returnFromCall = s.returnFromCall := by
  simp [State.returnFromCall, bind_assoc]

theorem unaryForm_withOutputs (f : Word → Word) : unaryForm f (s.withOutputs d b) = unaryForm f s := by
  simp [unaryForm, bind_assoc]

theorem binaryForm_withOutputs (f : Word → Word → Word) : binaryForm f (s.withOutputs d b) = binaryForm f s := by
  simp [binaryForm, bind_assoc]

theorem binaryOpenForm_withOutputs (f : Word → Word → Option Word) :
    binaryOpenForm f (s.withOutputs d b) = binaryOpenForm f s := by
  simp [binaryOpenForm, bind_assoc]

theorem pushForm_withOutputs (v : Word) : pushForm v (s.withOutputs d b) = pushForm v s := by
  simp [pushForm, bind_assoc]

theorem storeToCell_withOutputs (k : CellIndex) : storeToCell k (s.withOutputs d b) = storeToCell k s := by
  simp [storeToCell, bind_assoc]

theorem loadFromCell_withOutputs (k : CellIndex) : loadFromCell k (s.withOutputs d b) = loadFromCell k s := by
  simp [loadFromCell, pushForm_withOutputs]

theorem addFromCell_withOutputs (k : CellIndex) : addFromCell k (s.withOutputs d b) = addFromCell k s := by
  simp [addFromCell, bind_assoc]

theorem callForm_withOutputs (g : Word → Word) : callForm g (s.withOutputs d b) = callForm g s := by
  simp [callForm, bind_assoc]

theorem branchForm_withOutputs (taken : Word → Bool) : branchForm taken (s.withOutputs d b) = branchForm taken s := by
  simp [branchForm]

theorem loadForm_withOutputs (w : Width) : loadForm w (s.withOutputs d b) = loadForm w s := by
  simp [loadForm, bind_assoc]

theorem storeForm_withOutputs (w : Width) : storeForm w (s.withOutputs d b) = storeForm w s := by
  simp [storeForm, bind_assoc]

/-- An optional instruction reads no more than its hardware rule does. -/
theorem whereBuilt_withOutputs (op : Nat) {hw hw' : Res State} (h : hw' = hw) :
    (s.withOutputs d b).whereBuilt op hw' = s.whereBuilt op hw := by
  simp [State.whereBuilt, emulateCall_withOutputs, h]

/-! ### Every instruction -/

theorem execPoppcrel_withOutputs : execPoppcrel (s.withOutputs d b) = execPoppcrel s :=
  whereBuilt_withOutputs s d b 57 (by simp [bind_assoc])

/-- IM reads `idim`, and the level of `break` does not matter to it. -/
theorem execIm_withOutputs (x : BitVec 7) : execIm x (s.withOutputs s.idim b) = execIm x s := by
  simp [execIm, bind_assoc]

/-- No instruction reads the outputs, except that IM reads `idim`. -/
theorem exec_withOutputs {i : Instr} (h : isIm i = true → d = s.idim) : exec i (s.withOutputs d b) = exec i s := by
  cases i
  case im x =>
    rw [h rfl]
    exact execIm_withOutputs s b x
  case breakpoint | shiftlleft | popint | compare | sncpy | nop | popsp => rfl
  case storesp | pop | popdown => exact storeToCell_withOutputs s d b _
  case loadsp | dup | dupstackb => exact loadFromCell_withOutputs s d b _
  case addsp | addtop | shift => exact addFromCell_withOutputs s d b _
  case emulate | sncpy2 | wcpy | swap | config | syscall => exact emulateCall_withOutputs s d b _
  case poppc => exact returnFromCall_withOutputs s d b
  case poppcrel => exact execPoppcrel_withOutputs s d b
  case pushsp => exact pushForm_withOutputs s d b _
  case pushpc => exact whereBuilt_withOutputs s d b _ (pushForm_withOutputs s d b _)
  case not | flip => exact unaryForm_withOutputs s d b _
  case neg | pushspadd => exact whereBuilt_withOutputs s d b _ (unaryForm_withOutputs s d b _)
  case add | and | or => exact binaryForm_withOutputs s d b _
  case lessthan | lessthanorequal | ulessthan | ulessthanorequal | mult | lshiftright | ashiftleft | ashiftright
      | eq | neq | sub | xor | halfmult =>
    exact whereBuilt_withOutputs s d b _ (binaryForm_withOutputs s d b _)
  case div | mod => exact whereBuilt_withOutputs s d b _ (binaryOpenForm_withOutputs s d b _)
  case call | callpcrel => exact whereBuilt_withOutputs s d b _ (callForm_withOutputs s d b _)
  case eqbranch | neqbranch => exact whereBuilt_withOutputs s d b _ (branchForm_withOutputs s d b _)
  case load => exact loadForm_withOutputs s d b _
  case loadb | loadh => exact whereBuilt_withOutputs s d b _ (loadForm_withOutputs s d b _)
  case store => exact storeForm_withOutputs s d b _
  case storeb | storeh => exact whereBuilt_withOutputs s d b _ (storeForm_withOutputs s d b _)

end

theorem idim_of_exec_eq_next {i : Instr} {s t : State} (h : exec i s = .next t) : t.idim = isIm i := by
  obtain ⟨p, q, bytes, n, -, -, -, -, rfl⟩ := leaves_of_exec_eq_next h
  rfl

theorem breakLine_of_exec_eq_next {i : Instr} {s t : State} (h : exec i s = .next t) :
    t.breakLine = decide (i = .breakpoint) := by
  obtain ⟨p, q, bytes, n, -, -, -, -, rfl⟩ := leaves_of_exec_eq_next h
  rfl

theorem breakEvents_of_exec_eq_next {i : Instr} {s t : State} (h : exec i s = .next t) :
    t.breakEvents = if i = .breakpoint then s.breakEvents ++ [s.pc] else s.breakEvents := by
  obtain ⟨p, q, bytes, n, -, -, -, -, rfl⟩ := leaves_of_exec_eq_next h
  rfl

/-- Settles O11: `idim` is the last instruction's kind, and only IM's meaning looks at it. -/
theorem idimIsSetAndReadOnlyByIm : Obligations.IdimIsSetAndReadOnlyByIm := by
  refine ⟨fun i s t h => ?_, fun i s b hi => ?_⟩
  · rw [idim_of_exec_eq_next h, isIm_iff]
  · refine exec_withOutputs s b s.breakLine fun him => ?_
    obtain ⟨x, hx⟩ := (isIm_iff i).mp him
    exact absurd hx (hi x)

/-- Settles O12: the output and the events follow from what an instruction can leave, and no meaning looks at the
output. -/
theorem breakOutputComesOnlyFromBreakpoint : Obligations.BreakOutputComesOnlyFromBreakpoint := by
  refine ⟨fun i s t h => ⟨?_, breakEvents_of_exec_eq_next h⟩, fun i s b => ?_⟩
  · rw [breakLine_of_exec_eq_next h, decide_eq_true_iff]
  · exact exec_withOutputs s s.idim b fun _ => rfl

end Sys2Proof.Machine
end

section
/-! Memory (spec/20_memory.md): what an instruction stores to and where it may (R47, R49, R52), the byte order (R42),
and the data accesses and pushes that are given no meaning (R45, R47, R52, R242). -/

namespace Sys2Proof.Machine

/-! ### The bytes an instruction stores to -/

/-- Settles O14, from what an instruction can leave (`Leaves`): it stores its footprint's bytes and no others. -/
theorem bytesOutsideTheFootprintAreKept : Obligations.BytesOutsideTheFootprintAreKept := by
  intro i s t h a ha
  obtain ⟨p, q, bytes, d, hlen, -, -, -, rfl⟩ := leaves_of_exec_eq_next h
  rw [← hlen] at ha
  exact read_writeList_outside s.mem _ bytes ha

/-- Settles O15, from what an instruction can leave (`Leaves`): each operand form checks the store before it. -/
theorem everyStoreIsPermitted : Obligations.EveryStoreIsPermitted := by
  intro i s t h
  obtain ⟨p, q, bytes, d, -, hw, -, -, -⟩ := leaves_of_exec_eq_next h
  exact hw

/-! ### Words and halves in either byte order -/

/-- In canonical memory a half read after a half written at the same address is that half, in either byte order. -/
theorem readHalf_writeList_halfBytes {m : Memory} (h : m.wf = true) (o : ByteOrder) (a : Nat) (v : BitVec 16) :
    (m.writeList a (halfBytes o v)).readHalf o a = v := by
  have hread (i : Nat) (hi : i < 2) :=
    read_writeList_inside h a (halfBytes o v) (i := i) (by rwa [halfBytes_length])
  have h0 : (m.writeList a (halfBytes o v)).read a = _ := hread 0 (by omega)
  have h1 := hread 1 (by omega)
  cases o <;> rw [Memory.readHalf, h0, h1] <;> exact append_bytes_of_half v

/-- Settles O52: a read is its bytes by definition, and each byte written is read back at its place. -/
theorem wordsReadBackInEitherByteOrder : Obligations.WordsReadBackInEitherByteOrder := by
  intro m a v h
  refine ⟨⟨rfl, rfl, rfl, rfl⟩, fun hm => ?_⟩
  have hword (o : ByteOrder) (i : Nat) (hi : i < 4) :=
    read_writeList_inside hm a (wordBytes o v) (i := i) (by rwa [wordBytes_length])
  have hhalf (o : ByteOrder) (i : Nat) (hi : i < 2) :=
    read_writeList_inside hm a (halfBytes o h) (i := i) (by rwa [halfBytes_length])
  exact ⟨fun o => ⟨readWord_writeWord hm o a v, readHalf_writeList_halfBytes hm o a h⟩,
    ⟨hword .big 0 (by decide), hword .big 1 (by decide), hword .big 2 (by decide), hword .big 3 (by decide)⟩,
    ⟨hword .little 0 (by decide), hword .little 1 (by decide), hword .little 2 (by decide),
      hword .little 3 (by decide)⟩,
    ⟨hhalf .big 0 (by decide), hhalf .big 1 (by decide)⟩,
    hhalf .little 0 (by decide), hhalf .little 1 (by decide)⟩

/-- Settles O56: two cells up from the old `sp` is the new `sp`, so the word stored is the one found there. -/
theorem storeIntoTheStackIsSeenAfterThePops : Obligations.StoreIntoTheStackIsSeenAfterThePops := by
  intro s t k hs haddr h
  obtain ⟨-, -, -, hmem, -⟩ := wf_iff.mp hs
  obtain ⟨-, rfl⟩ := storeForm_eq_next.mp h
  rw [State.cell, sa_landing_spPlus, landing_mem, landing_cfg, haddr, BitVec.add_comm 2#30 k]
  exact readWord_writeWord hmem _ _ _

/-! ### Alignment (R45) -/

theorem aligned_eq_false_iff {w : Width} {a : Word} : aligned w a = false ↔ a.toNat % bytesIn w ≠ 0 := by
  simp [aligned]

theorem aligned_of_mod_eq_zero {w : Width} {a : Word} (h : a.toNat % bytesIn w = 0) : aligned w a = true := by
  simp [aligned, h]

/-- Every address is aligned for a byte. -/
@[simp] theorem aligned_byte (a : Word) : aligned .byte a = true := aligned_of_mod_eq_zero (Nat.mod_one _)

theorem aligned_word_of_lowBits {a : Word} (h : a.extractLsb' 0 2 ≠ 0#2) : aligned .word a = false := by
  rw [aligned_eq_false_iff]
  exact fun hmod => h (BitVec.eq_of_toNat_eq (by simpa [BitVec.extractLsb'_toNat, bytesIn] using hmod))

theorem aligned_half_of_lowBit {a : Word} (h : a.getLsbD 0 = true) : aligned .half a = false := by
  rw [aligned_eq_false_iff]
  simp only [BitVec.getLsbD, Nat.testBit_zero, decide_eq_true_eq] at h
  simp [bytesIn, h]

/-! ### Where a data access stops, said once for each form -/

theorem loadForm_of_misaligned {w : Width} {s : State} (hr : s.cellReadable 0#30 = true)
    (ha : aligned w (s.cell 0#30) = false) : loadForm w s = .refused .misaligned := by
  simp only [loadForm, readStk_of_readable hr, ha, bind_next, require_false, bind_refused]

theorem storeForm_of_misaligned {w : Width} {s : State} (hr : s.cellReadable 0#30 = true)
    (hr' : s.cellReadable 1#30 = true) (ha : aligned w (s.cell 0#30) = false) :
    storeForm w s = .refused .misaligned := by
  simp only [storeForm, readStk_of_readable hr, readStk_of_readable hr', ha, bind_next, require_false, bind_refused]

/-- An aligned load beside the cached cells comes down to the access of its data bytes. -/
theorem loadForm_of_aligned {w : Width} {s : State} (hr : s.cellReadable 0#30 = true)
    (ha : aligned w (s.cell 0#30) = true) (hc : s.hitsCachedCells (s.cell 0#30).toNat (bytesIn w) = false) :
    loadForm w s = (s.access (s.cell 0#30).toNat (bytesIn w)).bind fun _ =>
      (s.writeStk 0#30 (s.dataAt w (s.cell 0#30).toNat)).bind fun t => t.finish := by
  simp only [loadForm, readStk_of_readable hr, ha, hc, bind_next, Bool.not_false, require_true]

/-- An aligned store comes down to the write of its data bytes. -/
theorem storeForm_of_aligned {w : Width} {s : State} (hr : s.cellReadable 0#30 = true)
    (hr' : s.cellReadable 1#30 = true) (ha : aligned w (s.cell 0#30) = true) :
    storeForm w s = (s.writeBytes (s.cell 0#30).toNat (dataBytes s.cfg.byteOrder w (s.cell 1#30))).bind fun t =>
      (t.moveSp 2#30).finish := by
  simp only [storeForm, readStk_of_readable hr, readStk_of_readable hr', ha, bind_next, require_true]

theorem writeBytes_of_device {s : State} {a : Nat} {bytes : List Byte} (hp : s.plain a bytes.length = false)
    (hm : s.mapped a bytes.length = true) : s.writeBytes a bytes = .refused .deviceWindow := by
  rw [State.writeBytes, access_of_device hp hm, bind_refused]

theorem writeBytes_of_unmapped {s : State} {a : Nat} {bytes : List Byte} (hm : s.mapped a bytes.length = false) :
    s.writeBytes a bytes = .fault .unmapped := by
  rw [State.writeBytes, access_of_unmapped hm, bind_fault]

/-- Settles O50: the access to the data word is the one that refuses. -/
theorem deviceDataAddressIsRefused : Obligations.DeviceDataAddressIsRefused := by
  intro s hr hmod hplain hmapped
  have ha : aligned .word (s.cell 0#30) = true := aligned_of_mod_eq_zero hmod
  refine ⟨fun hc => ?_, fun hr' => ?_⟩
  · exact (loadForm_of_aligned hr ha hc).trans (by rw [bytesIn, access_of_device hplain hmapped, bind_refused])
  · refine (storeForm_of_aligned hr hr' ha).trans ?_
    rw [writeBytes_of_device (by rwa [dataBytes_length]) (by rwa [dataBytes_length]), bind_refused]

/-! ### Nothing but the alignment check refuses as misaligned -/

theorem bind_ne_refused {α β : Type} {r : Res α} {f : α → Res β} {e : Refusal} (hr : r ≠ .refused e)
    (hf : ∀ a, f a ≠ .refused e) : r.bind f ≠ .refused e := by
  cases r with
  | next a => exact hf a
  | fault _ => exact nofun
  | refused _ => exact fun h => hr (congrArg Host.Outcome.refused (Host.Outcome.refused.inj h))

theorem require_ne_misaligned {ok : Bool} {why : Refusal} (h : why ≠ .misaligned) :
    require ok why ≠ .refused .misaligned := by
  cases ok
  · exact fun e => h (Host.Outcome.refused.inj e)
  · exact nofun

theorem access_ne_misaligned (s : State) (a n : Nat) : s.access a n ≠ .refused .misaligned := by
  unfold State.access
  split
  · exact nofun
  · split <;> exact nofun

theorem readStk_ne_misaligned (s : State) (k : CellIndex) : s.readStk k ≠ .refused .misaligned :=
  bind_ne_refused (access_ne_misaligned s _ 4) fun _ => nofun

theorem writeBytes_ne_misaligned (s : State) (a : Nat) (bytes : List Byte) :
    s.writeBytes a bytes ≠ .refused .misaligned :=
  bind_ne_refused (access_ne_misaligned s a _) fun _ =>
    bind_ne_refused (require_ne_misaligned nofun) fun _ => nofun

theorem emulateCall_ne_misaligned (s : State) (x : BitVec 5) : s.emulateCall x ≠ .refused .misaligned :=
  bind_ne_refused (writeBytes_ne_misaligned _ _ _) fun _ => nofun

theorem loadForm_byte_ne_misaligned (s : State) : loadForm .byte s ≠ .refused .misaligned := by
  simp only [loadForm, aligned_byte, require_true, bind_next]
  exact bind_ne_refused (readStk_ne_misaligned s _) fun a =>
    bind_ne_refused (require_ne_misaligned nofun) fun _ =>
    bind_ne_refused (access_ne_misaligned s _ _) fun _ =>
    bind_ne_refused (writeBytes_ne_misaligned s _ _) fun _ => nofun

theorem storeForm_byte_ne_misaligned (s : State) : storeForm .byte s ≠ .refused .misaligned := by
  simp only [storeForm, aligned_byte, require_true, bind_next]
  exact bind_ne_refused (readStk_ne_misaligned s _) fun a =>
    bind_ne_refused (readStk_ne_misaligned s _) fun b =>
    bind_ne_refused (writeBytes_ne_misaligned s _ _) fun _ => nofun

theorem whereBuilt_ne_misaligned {s : State} {op : Nat} {hw : Res State} (h : hw ≠ .refused .misaligned) :
    s.whereBuilt op hw ≠ .refused .misaligned := by
  unfold State.whereBuilt
  split
  · exact h
  · exact emulateCall_ne_misaligned s _

/-- Settles O46: the check is made as soon as the operands are read, and it always passes for a byte. -/
theorem misalignedDataAddressIsRefused : Obligations.MisalignedDataAddressIsRefused := by
  intro s
  refine ⟨fun hr => ⟨fun hlow => ?word, fun hlow => ?half⟩,
    whereBuilt_ne_misaligned (loadForm_byte_ne_misaligned s),
    whereBuilt_ne_misaligned (storeForm_byte_ne_misaligned s)⟩
  case word =>
    have ha := aligned_word_of_lowBits hlow
    exact ⟨loadForm_of_misaligned hr ha, fun hr' => storeForm_of_misaligned hr hr' ha⟩
  case half =>
    have ha := aligned_half_of_lowBit hlow
    exact ⟨fun hb => (whereBuilt_of_built hb).trans (loadForm_of_misaligned hr ha),
      fun hb hr' => (whereBuilt_of_built hb).trans (storeForm_of_misaligned hr hr' ha)⟩

/-! ### The default MEM_MAP (R47): plain memory below `2^L`, and nothing above -/

theorem ten_le_addrBits_of_wf {c : Config} (h : c.wf = true) : 10 ≤ c.addrBits := by
  simp only [Config.wf, Bool.and_eq_true, decide_eq_true_eq] at h
  obtain ⟨⟨⟨hge, -⟩, -⟩, -⟩ := h
  exact hge

theorem regionAt_defaultMemMap (L a : Nat) :
    regionAt (defaultMemMap L) a = if a < 2 ^ L then some .plain else none := by
  simp [regionAt, defaultMemMap]

/-- Every stack cell lies below `2^L`, whatever the map. -/
theorem sa_add_four_le {s : State} (hs : s.wf = true) (k : CellIndex) : s.sa k + 4 ≤ 2 ^ s.cfg.addrBits := by
  obtain ⟨hcfg, -⟩ := wf_iff.mp hs
  have hle := addrBits_le_of_wf hcfg
  have hge := ten_le_addrBits_of_wf hcfg
  have hcell : (s.spPlus k).toNat < 2 ^ (s.cfg.addrBits - 2) := wrapSp_toNat_lt (by omega) _
  have hpow : 2 ^ s.cfg.addrBits = 2 ^ (s.cfg.addrBits - 2) * 4 := by
    rw [← Nat.pow_add 2 _ 2, Nat.sub_add_cancel (by omega)]
  rw [sa_eq]
  omega

section
variable {s : State} (hmap : s.cfg.memMap = defaultMemMap s.cfg.addrBits)
include hmap

theorem plain_of_defaultMemMap {a n : Nat} (h : a + n ≤ 2 ^ s.cfg.addrBits) : s.plain a n = true := by
  simp only [State.plain, List.all_eq_true, List.mem_range, beq_iff_eq, hmap, regionAt_defaultMemMap]
  exact fun i hi => if_pos (by omega)

theorem mapped_of_defaultMemMap_beyond {a n : Nat} (hn : 0 < n) (h : 2 ^ s.cfg.addrBits ≤ a) :
    s.mapped a n = false := by
  simp only [State.mapped, List.all_eq_false, List.mem_range, hmap, regionAt_defaultMemMap]
  exact ⟨0, hn, by rw [if_neg (by omega)]; nofun⟩

theorem cellReadable_of_defaultMemMap (hs : s.wf = true) (k : CellIndex) : s.cellReadable k = true :=
  plain_of_defaultMemMap hmap (sa_add_four_le hs k)

end

/-- No byte at or above `2^L` belongs to a stack cell, the two cached ones included. -/
theorem hitsCachedCells_beyond {s : State} (hs : s.wf = true) {a : Nat} (h : 2 ^ s.cfg.addrBits ≤ a) (n : Nat) :
    s.hitsCachedCells a n = false := by
  have hmiss (k : CellIndex) : overlap a n (s.sa k) 4 = false := by
    have := sa_add_four_le hs k
    simp only [overlap, Bool.and_eq_false_iff, decide_eq_false_iff_not]
    exact .inl (by omega)
  simp only [State.hitsCachedCells, hmiss, Bool.or_false]

theorem bytesIn_pos (w : Width) : 0 < bytesIn w := by cases w <;> decide

section
variable {w : Width} {s : State} (hs : s.wf = true) (hmap : s.cfg.memMap = defaultMemMap s.cfg.addrBits)
  (hbeyond : 2 ^ s.cfg.addrBits ≤ (s.cell 0#30).toNat) (hmod : (s.cell 0#30).toNat % bytesIn w = 0)
include hs hmap hbeyond hmod

theorem loadForm_beyond_defaultMemMap : loadForm w s = .fault .unmapped := by
  rw [loadForm_of_aligned (cellReadable_of_defaultMemMap hmap hs _) (aligned_of_mod_eq_zero hmod)
    (hitsCachedCells_beyond hs hbeyond _),
    access_of_unmapped (mapped_of_defaultMemMap_beyond hmap (bytesIn_pos w) hbeyond), bind_fault]

theorem storeForm_beyond_defaultMemMap : storeForm w s = .fault .unmapped := by
  have hr := cellReadable_of_defaultMemMap hmap hs
  have hm := mapped_of_defaultMemMap_beyond hmap (bytesIn_pos w) hbeyond
  rw [storeForm_of_aligned (hr 0#30) (hr 1#30) (aligned_of_mod_eq_zero hmod),
    writeBytes_of_unmapped (by rwa [dataBytes_length]), bind_fault]

end

/-- Settles O49, width by width: the operand cells are in the map, and the data address is not. -/
theorem dataAddressBeyondTheMapStops : Obligations.DataAddressBeyondTheMapStops := by
  intro s hs hmap hbeyond
  have hload {w : Width} := loadForm_beyond_defaultMemMap (w := w) hs hmap hbeyond
  have hstore {w : Width} := storeForm_beyond_defaultMemMap (w := w) hs hmap hbeyond
  refine ⟨fun hword => ⟨hload hword, hstore hword⟩, fun hhalf => ⟨fun hb => ?_, fun hb => ?_⟩, fun hb => ?_,
    fun hb => ?_⟩
  · exact (whereBuilt_of_built hb).trans (hload hhalf)
  · exact (whereBuilt_of_built hb).trans (hstore hhalf)
  · exact (whereBuilt_of_built hb).trans (hload (Nat.mod_one _))
  · exact (whereBuilt_of_built hb).trans (hstore (Nat.mod_one _))

/-! ### A push that stops (R52, R242) -/

/-- Whatever is pushed and whatever would follow, the step ends with `stop`. -/
def State.PushStops (s : State) (stop : Res State) : Prop :=
  ∀ (v : Word) (f : State → Res State), (s.push v).bind f = stop

theorem pushStops_of_executing {s : State} (hp : s.plain (s.sa (-1#30)) 4 = true)
    (hx : s.hitsExecutingWord (s.sa (-1#30)) 4 = true) : s.PushStops (.refused .storeIntoExecutingWord) :=
  fun v f => by rw [push_of_executing hp hx, bind_refused]

theorem pushStops_of_unmapped {s : State} (hm : s.mapped (s.sa (-1#30)) 4 = false) :
    s.PushStops (.fault .unmapped) :=
  fun v f => by rw [push_of_unmapped hm, bind_fault]

section
variable {s : State} {stop : Res State} (h : s.PushStops stop)
include h

theorem pushForm_of_pushStops (v : Word) : pushForm v s = stop := h v _

theorem emulateCall_of_pushStops (x : BitVec 5) : s.emulateCall x = stop := h s.nextPc _

theorem loadFromCell_of_pushStops {k : CellIndex} (hr : s.cellReadable k = true) : loadFromCell k s = stop := by
  rw [loadFromCell, readStk_of_readable hr, bind_next]
  exact pushForm_of_pushStops h _

theorem execIm_of_pushStops (hd : s.idim = false) (x : BitVec 7) : execIm x s = stop := by
  rw [execIm, hd]
  exact h _ _

end

/-! ### An optional opcode that is not built (R79) -/

/-- The byte of the instruction `decode` answers is the byte decoded. -/
theorem encode_decode : ∀ op : Byte, encode (decode op) = op := by decide +kernel

/-- An instruction of an optional opcode is the emulation call of that opcode where the hardware does not build it. -/
theorem exec_of_unbuilt {i : Instr} {s : State} (ho : isOptionalOpcode (encode i) = true)
    (hb : s.cfg.builds (encode i).toNat = false) : exec i s = s.emulateCall ((encode i).extractLsb' 0 5) := by
  cases i
  case im x => exact absurd ho ((by decide : ∀ x, isOptionalOpcode (encode (.im x)) ≠ true) x)
  case storesp x => exact absurd ho ((by decide : ∀ x, isOptionalOpcode (encode (.storesp x)) ≠ true) x)
  case loadsp x => exact absurd ho ((by decide : ∀ x, isOptionalOpcode (encode (.loadsp x)) ≠ true) x)
  case addsp x => exact absurd ho ((by decide : ∀ x, isOptionalOpcode (encode (.addsp x)) ≠ true) x)
  case emulate x =>
    have hx : ∀ y, (encode (.emulate y)).extractLsb' 0 5 = y := by decide
    rw [hx]
    rfl
  case sncpy2 | wcpy | swap | config | syscall => rfl
  case loadh | storeh | lessthan | lessthanorequal | ulessthan | ulessthanorequal | mult | lshiftright | ashiftleft
      | ashiftright | call | eq | neq | neg | sub | xor | loadb | storeb | div | mod | eqbranch | neqbranch | poppcrel
      | pushpc | pushspadd | halfmult | callpcrel =>
    exact whereBuilt_of_unbuilt hb
  all_goals exact absurd ho (by decide)

/-- Settles O48: every one of these instructions pushes before it does anything else that could stop. -/
theorem pushIntoExecutingWordOrUnmappedCellStops : Obligations.PushIntoExecutingWordOrUnmappedCellStops := by
  intro s stop hstop
  have h : s.PushStops stop := by
    rcases hstop with ⟨hp, hx, rfl⟩ | ⟨hm, rfl⟩
    · exact pushStops_of_executing hp hx
    · exact pushStops_of_unmapped hm
  refine ⟨execIm_of_pushStops h, fun x => loadFromCell_of_pushStops h, loadFromCell_of_pushStops h,
    loadFromCell_of_pushStops h, pushForm_of_pushStops h _,
    fun hb => (whereBuilt_of_built hb).trans (pushForm_of_pushStops h _), emulateCall_of_pushStops h,
    fun op ho hb => ?_⟩
  rw [← encode_decode op] at ho hb
  exact (exec_of_unbuilt ho hb).trans (emulateCall_of_pushStops h _)

end Sys2Proof.Machine
end

section
/-! The encoding (spec/30_encoding.md): decoding and encoding agree (R71 to R82), what a step executes (R73, R79), and
where it goes on (R73 (4)). -/

namespace Sys2Proof.Machine

/-! ### Decoding, format by format (R71, R72) -/

theorem decode_im (x : BitVec 7) : decode (0b1#1 ++ x) = .im x := by
  revert x
  decide

theorem decode_storesp (y : BitVec 5) : decode (0b010#3 ++ y) = storespInstr (y ^^^ 0b10000#5) := by
  revert y
  decide

theorem decode_loadsp (y : BitVec 5) : decode (0b011#3 ++ y) = loadspInstr (y ^^^ 0b10000#5) := by
  revert y
  decide

theorem decode_optional (x : BitVec 5) : decode (0b001#3 ++ x) = optionalInstr x := by
  revert x
  decide

theorem decode_addsp (x : BitVec 4) : decode (0b0001#4 ++ x) = addspInstr x := by
  revert x
  decide

/-- Inverting the offset bit of STORESP and LOADSP twice gives the offset back (R74). -/
theorem invert_invert_offset (x : BitVec 5) : (x ^^^ 0b10000#5) ^^^ 0b10000#5 = x := by simp

/-- The decoder answers the canonical name of the instruction whose byte it reads, whichever name that byte was written
under. -/
theorem decode_encode (i : Instr) : decode (encode i) = i.canonical := by
  cases i
  case im x => exact decode_im x
  case storesp x => exact (decode_storesp _).trans (congrArg storespInstr (invert_invert_offset x))
  case loadsp x => exact (decode_loadsp _).trans (congrArg loadspInstr (invert_invert_offset x))
  case addsp x => exact decode_addsp x
  case emulate x => exact decode_optional x
  all_goals rfl

/-! ### Canonical names (R78, R82) -/

theorem ne_zero_and_ne_one_of_two_le {w : Nat} {x : BitVec w} (h : 2 ≤ x.toNat) : x ≠ 0#w ∧ x ≠ 1#w := by
  have hone : (1#w).toNat ≤ 1 := by
    rw [BitVec.toNat_ofNat]
    exact Nat.mod_le 1 _
  constructor
  · rintro rfl
    simp at h
  · rintro rfl
    omega

/-- The offsets that have no name of their own keep the parameterised one. -/
theorem canonical_of_wellFormed {i : Instr} (h : i.wellFormed = true) : i.canonical = i := by
  cases i
  case storesp | loadsp | addsp =>
    obtain ⟨h0, h1⟩ := ne_zero_and_ne_one_of_two_le (of_decide_eq_true h)
    exact (if_neg h0).trans (if_neg h1)
  case emulate => cases h
  all_goals rfl

theorem wellFormed_storespInstr : ∀ x, (storespInstr x).wellFormed = true := by decide
theorem wellFormed_loadspInstr : ∀ x, (loadspInstr x).wellFormed = true := by decide
theorem wellFormed_addspInstr : ∀ x, (addspInstr x).wellFormed = true := by decide
theorem wellFormed_optionalInstr : ∀ x, (optionalInstr x).wellFormed = true := by decide
theorem wellFormed_fixedInstr : ∀ x, (fixedInstr x).wellFormed = true := by decide

/-- Whatever the byte, each format answers a canonical name. -/
theorem wellFormed_decode (op : Byte) : (decode op).wellFormed = true := by
  unfold decode
  split_ifs
  · rfl
  · exact wellFormed_storespInstr _
  · exact wellFormed_loadspInstr _
  · exact wellFormed_optionalInstr _
  · exact wellFormed_addspInstr _
  · exact wellFormed_fixedInstr _

/-- Settles O1: the decoder answers the canonical name, which a well-formed instruction has already. -/
theorem decodeOfEncodeIsTheInstruction : Obligations.DecodeOfEncodeIsTheInstruction :=
  fun i hi => (decode_encode i).trans (canonical_of_wellFormed hi)

/-- Settles O2: the well-formed half by the formats; the bytes by evaluation (`encode_decode`). -/
theorem everyByteDecodesAndEncodesBack : Obligations.EveryByteDecodesAndEncodesBack :=
  fun op => ⟨wellFormed_decode op, encode_decode op⟩

/-- Settles O3, by evaluating the decoder on the sixteen bytes. -/
theorem sampleBytesDecode : Obligations.SampleBytesDecode := by
  unfold Obligations.SampleBytesDecode
  decide

/-- Settles O4: the bytes are evaluated, and each other name is defined by the same form with the same cell. -/
theorem aliasIsItsParameterisedInstruction : Obligations.AliasIsItsParameterisedInstruction :=
  ⟨by decide, fun _ => ⟨rfl, rfl, rfl, rfl, rfl, rfl⟩⟩

/-! ### Built or emulated (R79) -/

theorem decodeFor_of_built {c : Config} {op : Byte} (h : c.builds op.toNat = true) : decodeFor c op = decode op := by
  simp [decodeFor, h]

theorem decodeFor_of_unbuilt {c : Config} {op : Byte} (ho : isOptionalOpcode op = true)
    (h : c.builds op.toNat = false) : decodeFor c op = .emulate (op.extractLsb' 0 5) := by
  simp [decodeFor, ho, h]

theorem decodeFor_of_not_optional {c : Config} {op : Byte} (ho : isOptionalOpcode op = false) :
    decodeFor c op = decode op := by
  simp [decodeFor, ho]

/-- The meaning of an opcode that the hardware does not build is the emulation call that R79 puts in its place. -/
theorem exec_decode_of_unbuilt {s : State} {op : Byte} (ho : isOptionalOpcode op = true)
    (hb : s.cfg.builds op.toNat = false) : exec (decode op) s = exec (.emulate (op.extractLsb' 0 5)) s := by
  rw [← encode_decode op] at ho hb
  have h := exec_of_unbuilt ho hb
  rwa [encode_decode] at h

/-- Which of its two names an opcode is decoded to makes no difference to what it does. -/
theorem exec_decodeFor (s : State) (op : Byte) : exec (decodeFor s.cfg op) s = exec (decode op) s := by
  cases ho : isOptionalOpcode op
  · rw [decodeFor_of_not_optional ho]
  · cases hb : s.cfg.builds op.toNat
    · rw [decodeFor_of_unbuilt ho hb, exec_decode_of_unbuilt ho hb]
    · rw [decodeFor_of_built hb]

/-- The number that an optional opcode's field holds (R78). -/
theorem toNat_lowBits_of_optional : ∀ op : Byte, isOptionalOpcode op = true →
    (op.extractLsb' 0 5).toNat = op.toNat - 32 := by decide +kernel

/-- The entry of the emulation code, as an address (R101). -/
theorem emulateEntry_eq (x : BitVec 5) : x.setWidth 32 <<< 5 = BitVec.ofNat 32 (32 * x.toNat) := by
  revert x
  decide

theorem exec_emulate_of_pushReady {s : State} (h : s.pushReady = true) (x : BitVec 5) :
    exec (.emulate x) s = .next (s.landing (wrapPc s.cfg (BitVec.ofNat 32 (32 * x.toNat))) (s.spPlus (-1#30))
      (s.memWithCell (-1#30) s.nextPc)) := by
  rw [← emulateEntry_eq]
  exact emulateCall_eq_next.mpr ⟨h, rfl⟩

/-- Settles O5: the decoder's choice and the instruction's own meaning agree. -/
theorem optionalOpcodeIsBuiltOrEmulated : Obligations.OptionalOpcodeIsBuiltOrEmulated := by
  intro s op ho
  refine ⟨decodeFor_of_built, fun hb => ?_⟩
  have hexec := exec_decode_of_unbuilt ho hb
  refine ⟨decodeFor_of_unbuilt ho hb, hexec, fun hpush => ?_⟩
  rw [hexec, exec_emulate_of_pushReady hpush, toNat_lowBits_of_optional op ho]

/-! ### The step (R73) -/

theorem fetch_of_plain {s : State} (h : s.plain s.pc.toNat 1 = true) : s.fetch = .next (s.mem.read s.pc.toNat) := by
  rw [State.fetch, access_of_plain h, bind_next]

theorem step_of_open {s : State} (hopen : s.runEnded = false) (hplain : s.plain s.pc.toNat 1 = true) :
    step s = exec (decodeFor s.cfg (s.mem.read s.pc.toNat)) s := by
  simp [step, hopen, fetch_of_plain hplain]

/-- Settles O6: the step executes what the byte decodes to for this hardware, and that does the same. -/
theorem stepRunsTheDecodedInstruction : Obligations.StepRunsTheDecodedInstruction := by
  rintro s i hopen hplain rfl
  rw [step_of_open hopen hplain, exec_decodeFor]

/-! ### Straight-line instructions go on at the next byte (R73 (4)) -/

/-- Wherever the operation goes on, it does so at `PC0 + 1`. -/
def State.Advances (s : State) (r : Res State) : Prop := ∀ t, r = .next t → t.pc = s.nextPc

/-- An operation that goes on to one state only, with `pc` at `PC0 + 1`. -/
theorem advances_of_eq_next_iff {s t' : State} {r : Res State} {ready : Prop}
    (h : ∀ t, r = .next t ↔ ready ∧ t = t') (hpc : t'.pc = s.nextPc) : s.Advances r := by
  intro t ht
  obtain ⟨-, rfl⟩ := (h t).mp ht
  exact hpc

theorem advances_popsp (s : State) : s.Advances (execPopsp s) := by
  intro t h
  obtain ⟨a, -, ht⟩ := bind_eq_next.mp h
  cases ht
  rfl

/-- An IM goes on at the next byte whether it pushes or extends. -/
theorem advances_im (s : State) (x : BitVec 7) : s.Advances (execIm x s) := by
  intro t h
  unfold execIm at h
  split at h
  · obtain ⟨a, -, h⟩ := bind_eq_next.mp h
    obtain ⟨u, hu, ht⟩ := bind_eq_next.mp h
    obtain ⟨-, rfl⟩ := writeStk_eq_next.mp hu
    cases ht
    rfl
  · obtain ⟨u, hu, ht⟩ := bind_eq_next.mp h
    obtain ⟨-, rfl⟩ := push_eq_next.mp hu
    cases ht
    rfl

theorem advances_whereBuilt {s : State} {op : Nat} {hw : Res State} (hb : s.cfg.builds op = true)
    (h : s.Advances hw) : s.Advances (s.whereBuilt op hw) := by
  rwa [whereBuilt_of_built hb]

/-- Only opcodes with a hardware meaning are built (R9, log entry 7). -/
theorem mem_buildableOpcodes_of_builds {c : Config} (hc : c.wf = true) {op : Nat} (hb : c.builds op = true) :
    op ∈ buildableOpcodes := by
  simp only [Config.wf, Bool.and_eq_true, List.all_eq_true, List.contains_iff_mem] at hc
  obtain ⟨⟨-, hall⟩, -⟩ := hc
  exact hall op (List.contains_iff_mem.mp hb)

/-- The instructions that write `pc` themselves. -/
def isTransfer (i : Instr) : Bool :=
  match i with
  | .emulate _ | .poppc | .call | .eqbranch | .neqbranch | .poppcrel | .callpcrel => true
  | _ => false

/-- Every other instruction goes on at the next byte, if its opcode is built where it is an optional one. -/
theorem advances_exec {i : Instr} {s : State} (hc : s.cfg.wf = true) (hi : isTransfer i = false)
    (hb : isOptionalOpcode (encode i) = true → s.cfg.builds (encode i).toNat = true) : s.Advances (exec i s) := by
  cases i
  case im x => exact advances_im s x
  case storesp | pop | popdown => exact advances_of_eq_next_iff (fun _ => storeToCell_eq_next) rfl
  case loadsp | dup | dupstackb => exact advances_of_eq_next_iff (fun _ => loadFromCell_eq_next) rfl
  case addsp | addtop | shift => exact advances_of_eq_next_iff (fun _ => addFromCell_eq_next) rfl
  case emulate | poppc | call | eqbranch | neqbranch | poppcrel | callpcrel => cases hi
  case breakpoint | nop =>
    rintro t ⟨⟩
    rfl
  case shiftlleft | popint | compare | sncpy => nofun
  case pushsp => exact advances_of_eq_next_iff (fun _ => pushForm_eq_next) rfl
  case add | and | or => exact advances_of_eq_next_iff (fun _ => binaryForm_eq_next) rfl
  case load => exact advances_of_eq_next_iff (fun _ => loadForm_eq_next) rfl
  case not | flip => exact advances_of_eq_next_iff (fun _ => unaryForm_eq_next) rfl
  case store => exact advances_of_eq_next_iff (fun _ => storeForm_eq_next) rfl
  case popsp => exact advances_popsp s
  case sncpy2 | wcpy | swap | config | syscall =>
    exact absurd (mem_buildableOpcodes_of_builds hc (hb rfl)) (by decide)
  case loadh | loadb => exact advances_whereBuilt (hb rfl) (advances_of_eq_next_iff (fun _ => loadForm_eq_next) rfl)
  case storeh | storeb => exact advances_whereBuilt (hb rfl) (advances_of_eq_next_iff (fun _ => storeForm_eq_next) rfl)
  case neg | pushspadd => exact advances_whereBuilt (hb rfl) (advances_of_eq_next_iff (fun _ => unaryForm_eq_next) rfl)
  case div | mod => exact advances_whereBuilt (hb rfl) (advances_of_eq_next_iff (fun _ => binaryOpenForm_eq_next) rfl)
  case pushpc => exact advances_whereBuilt (hb rfl) (advances_of_eq_next_iff (fun _ => pushForm_eq_next) rfl)
  case lessthan | lessthanorequal | ulessthan | ulessthanorequal | mult | lshiftright | ashiftleft | ashiftright | eq
      | neq | sub | xor | halfmult =>
    exact advances_whereBuilt (hb rfl) (advances_of_eq_next_iff (fun _ => binaryForm_eq_next) rfl)

/-- Settles O16, operand form by operand form. -/
theorem straightLineAdvancesPcByOne : Obligations.StraightLineAdvancesPcByOne := by
  intro i s t hc h hemu hlist hb
  have hi : isTransfer i = false := by
    cases i
    case emulate x => exact absurd rfl (hemu x)
    case poppc | call | eqbranch | neqbranch | poppcrel | callpcrel => exact absurd hlist (by decide)
    all_goals rfl
  exact advances_exec hc hi hb t h

end Sys2Proof.Machine
end

section
/-! IM (spec/40_im_emulate.md R100) and the run of IMs that makes one constant (spec/30_encoding.md R75). -/

namespace Sys2Proof.Machine

/-! ### One IM -/

/-- The state an IM leaves: as another instruction's, but with `idim` 1. -/
def State.imLanding (s : State) (q : CellIndex) (m : Memory) : State :=
  { s.landing s.nextPc q m with idim := true }

theorem exec_im_first {s : State} (hd : s.idim = false) (h : s.pushReady = true) (x : BitVec 7) :
    exec (.im x) s = .next (s.imLanding (s.spPlus (-1#30)) (s.memWithCell (-1#30) (x.signExtend 32))) := by
  simp only [exec, execIm, hd, Bool.false_eq_true, if_false, push_eq_next.mpr ⟨h, rfl⟩, bind_next]
  rfl

theorem exec_im_next {s : State} (hd : s.idim = true) (h : s.unaryReady = true) (x : BitVec 7) :
    exec (.im x) s =
      .next (s.imLanding s.sp (s.memWithCell 0#30 ((s.cell 0#30).extractLsb' 0 25 ++ x))) := by
  simp only [State.unaryReady, Bool.and_eq_true] at h
  obtain ⟨hread, hwrite⟩ := h
  simp only [exec, execIm, hd, if_true, readStk_of_readable hread, writeStk_of_writable hwrite, bind_next]
  rfl

theorem cellReadable_of_cellWritable {s : State} {k : CellIndex} (h : s.cellWritable k = true) :
    s.cellReadable k = true := by
  obtain ⟨hplain, -⟩ := writable_iff.mp h
  exact hplain

theorem unaryReady_of_cellWritable {s : State} (h : s.cellWritable 0#30 = true) : s.unaryReady = true := by
  simp [State.unaryReady, cellReadable_of_cellWritable h, h]

section
variable {s : State} {q : CellIndex} {k : CellIndex}

/-- The cell an IM has written is the top of the stack, and holds the value. -/
theorem cell_imLanding (hmem : s.mem.wf = true) (v : Word)
    (hsa : (s.imLanding q (s.memWithCell k v)).sa 0#30 = s.sa k) :
    (s.imLanding q (s.memWithCell k v)).cell 0#30 = v := by
  rw [State.cell, hsa]
  exact readWord_writeWord hmem _ _ v

theorem read_memWithCell_outside (v : Word) {a : Nat} (ha : outside a (s.sa k) 4) :
    (s.memWithCell k v).read a = s.mem.read a :=
  read_writeList_outside s.mem _ _ (by rwa [wordBytes_length])

end

/-! ### The value (R75) -/

/-- Putting a field under the low 25 bits multiplies by 128 and adds. -/
theorem extractLsb'_append_field (a : Word) (x : BitVec 7) :
    a.extractLsb' 0 25 ++ x = a * 128#32 + x.setWidth 32 := by
  apply BitVec.eq_of_toNat_eq
  have happend : (a.extractLsb' 0 25 ++ x).toNat = (a.toNat % 2 ^ 25) * 2 ^ 7 + x.toNat := by
    rw [BitVec.toNat_append, BitVec.extractLsb'_toNat, Nat.shiftRight_zero,
      ← Nat.shiftLeft_add_eq_or_of_lt x.isLt, Nat.shiftLeft_eq]
  have := x.isLt
  simp only [happend, BitVec.toNat_add, BitVec.toNat_mul, BitVec.toNat_setWidth, BitVec.toNat_ofNat]
  omega

theorem extend_ofInt (z : Int) (x : BitVec 7) :
    (BitVec.ofInt 32 z).extractLsb' 0 25 ++ x = BitVec.ofInt 32 (z * 128 + x.toNat) := by
  have hfield : x.setWidth 32 = BitVec.ofInt 32 (x.toNat : Int) := by
    rw [BitVec.ofInt_natCast, BitVec.ofNat_toNat]
  rw [extractLsb'_append_field, BitVec.ofInt_add, BitVec.ofInt_mul, hfield]
  rfl

/-! ### Where the run may write -/

/-- `n` instructions executed from `pc` on may write the cell `k`: it lies outside each one's word. -/
def State.CellWritableFor (s : State) (k : CellIndex) (n : Nat) : Prop :=
  ∀ j < n, State.cellWritable { s with pc := wrapPc s.cfg (s.pc + BitVec.ofNat 32 j) } k = true

theorem wrapPc_nextPc_add (s : State) (n : Nat) :
    wrapPc s.cfg (s.nextPc + BitVec.ofNat 32 n) = wrapPc s.cfg (s.pc + BitVec.ofNat 32 (n + 1)) := by
  rw [State.nextPc, wrapPc_wrapPc_add, BitVec.add_assoc, ← BitVec.ofNat_add, Nat.add_comm]

theorem wrapPc_pc {s : State} (hs : s.wf = true) : wrapPc s.cfg s.pc = s.pc := by
  obtain ⟨hcfg, hpc, -⟩ := wf_iff.mp hs
  exact wrapPc_of_lt (addrBits_le_of_wf hcfg) hpc

/-- The first of the instructions is the one at `pc`. -/
theorem cellWritable_of_cellWritableFor {s : State} (hs : s.wf = true) {k : CellIndex} {n : Nat}
    (h : s.CellWritableFor k (n + 1)) : s.cellWritable k = true := by
  have hfirst := h 0 (by omega)
  rwa [BitVec.add_zero, wrapPc_pc hs] at hfirst

/-- The rest of them are executed from the next `pc` on. -/
theorem cellWritableFor_imLanding {s : State} {q : CellIndex} {m : Memory} {k j : CellIndex} {n : Nat}
    (hsa : (s.imLanding q m).sa j = s.sa k) (h : s.CellWritableFor k (n + 1)) :
    (s.imLanding q m).CellWritableFor j n := by
  intro i hi
  have hnext := h (i + 1) (by omega)
  rw [← wrapPc_nextPc_add] at hnext
  change State.writable { s with pc := wrapPc s.cfg (s.nextPc + BitVec.ofNat 32 i) } ((s.imLanding q m).sa j) 4 = true
  rwa [hsa]

/-! ### The run -/

/-- The value `z` with the fields `xs` put under it one after the other. -/
def imConstant (z : Int) (xs : List (BitVec 7)) : Int := xs.foldl (fun v y => v * 128 + (y.toNat : Int)) z

/-- What a run of `n` IMs leaves: `sp` is `q`, the top of the stack holds the constant `z`, `pc` is `n` further, and no
byte outside the cell at byte address `a` has changed. -/
structure ImRunLeaves (s t : State) (q : CellIndex) (a n : Nat) (z : Int) : Prop where
  sp : t.sp = q
  idim : t.idim = true
  cell : t.cell 0#30 = BitVec.ofInt 32 z
  pc : t.pc = wrapPc s.cfg (s.pc + BitVec.ofNat 32 n)
  frame : ∀ b, outside b a 4 → t.mem.read b = s.mem.read b

/-- The empty run leaves a state that an IM has left as it is. -/
theorem imRunLeaves_zero {s : State} {z : Int} (hs : s.wf = true) (hd : s.idim = true)
    (hz : s.cell 0#30 = BitVec.ofInt 32 z) : ImRunLeaves s s s.sp (s.sa 0#30) 0 z where
  sp := rfl
  idim := hd
  cell := hz
  pc := by rw [BitVec.add_zero, wrapPc_pc hs]
  frame _ _ := rfl

/-- An IM that writes the cell `k`, and the rest of the run after it. -/
theorem imRunLeaves_succ {s t : State} {p q : CellIndex} {k : CellIndex} {v : Word} {n : Nat} {z : Int}
    (h : ImRunLeaves (s.imLanding p (s.memWithCell k v)) t q (s.sa k) n z) :
    ImRunLeaves s t q (s.sa k) (n + 1) z where
  sp := h.sp
  idim := h.idim
  cell := h.cell
  pc := h.pc.trans (wrapPc_nextPc_add s n)
  frame b hb := (h.frame b hb).trans (read_memWithCell_outside v hb)

/-- IMs that go on with a constant in the top of the stack extend it there, by induction on the fields. -/
theorem execAll_im_extends (xs : List (BitVec 7)) {s : State} {z : Int} (hs : s.wf = true) (hd : s.idim = true)
    (hw : s.CellWritableFor 0#30 xs.length) (hz : s.cell 0#30 = BitVec.ofInt 32 z) :
    ∃ t, execAll (xs.map Instr.im) s = .next t ∧
      ImRunLeaves s t s.sp (s.sa 0#30) xs.length (imConstant z xs) := by
  induction xs generalizing s z with
  | nil => exact ⟨s, rfl, imRunLeaves_zero hs hd hz⟩
  | cons x xs ih =>
    have hexec := exec_im_next hd (unaryReady_of_cellWritable (cellWritable_of_cellWritableFor hs hw)) x
    rw [hz, extend_ofInt] at hexec
    obtain ⟨-, -, -, hmem, -⟩ := wf_iff.mp hs
    obtain ⟨t, hrun, hleaves⟩ :=
      ih (exec_keeps_wf hs hexec) rfl (cellWritableFor_imLanding rfl hw) (cell_imLanding hmem _ rfl)
    refine ⟨t, ?_, imRunLeaves_succ hleaves⟩
    rw [List.map_cons, execAll, hexec, bind_next, hrun]

/-- The first IM pushes a cell, and the others extend it. -/
theorem execAll_im_run (x : BitVec 7) (xs : List (BitVec 7)) {s : State} (hs : s.wf = true) (hd : s.idim = false)
    (hw : s.CellWritableFor (-1#30) (xs.length + 1)) :
    ∃ t, execAll (Instr.im x :: xs.map Instr.im) s = .next t ∧
      ImRunLeaves s t (s.spPlus (-1#30)) (s.sa (-1#30)) (xs.length + 1) (imConstant x.toInt xs) := by
  have hexec := exec_im_first hd (cellWritable_of_cellWritableFor hs hw) x
  obtain ⟨-, -, -, hmem, -⟩ := wf_iff.mp hs
  have hsa : (s.imLanding (s.spPlus (-1#30)) (s.memWithCell (-1#30) (x.signExtend 32))).sa 0#30 = s.sa (-1#30) :=
    sa_moveSp_zero s (-1#30)
  obtain ⟨t, hrun, hleaves⟩ := execAll_im_extends xs (exec_keeps_wf hs hexec) rfl
    (cellWritableFor_imLanding hsa hw) (cell_imLanding hmem _ hsa)
  rw [hsa] at hleaves
  refine ⟨t, ?_, imRunLeaves_succ hleaves⟩
  rw [execAll, hexec, bind_next, hrun]

/-- Settles O18, from what a run of IMs leaves (`ImRunLeaves`). -/
theorem imRunPushesOneConstant : Obligations.ImRunPushesOneConstant := by
  intro x xs s hs hd hw
  obtain ⟨t, hrun, hleaves⟩ := execAll_im_run x xs hs hd fun n hn => hw n (by omega)
  exact ⟨t, hrun, hleaves.sp, hleaves.idim, hleaves.cell, hleaves.pc, hleaves.frame⟩

end Sys2Proof.Machine
end

section
/-! IM and EMULATE, each as one instruction (spec/40_im_emulate.md R100, R101). -/

namespace Sys2Proof.Machine

/-- Settles O17: the byte by its format, and one equation for each value of `idim` (`exec_im_first`,
`exec_im_next`). -/
theorem imPushesOrExtendsTheTop : Obligations.ImPushesOrExtendsTheTop :=
  fun x _ => ⟨decode_im x, fun hd hpush => exec_im_first hd hpush x, fun hd htop => exec_im_next hd htop x⟩

/-- Settles O19: `encode` writes the byte from the same format, and the call goes to the entry `32 * x`
(`exec_emulate_of_pushReady`). -/
theorem emulateCallsItsEntry : Obligations.EmulateCallsItsEntry :=
  fun x _ => ⟨rfl, fun hpush => exec_emulate_of_pushReady hpush x⟩

end Sys2Proof.Machine
end


section
/-! The stack-relative instructions and their aliases (spec/41_stack_relative.md R110 to R118), each form's equation
from what the form can do (`storeToCell_eq_next`, `loadFromCell_eq_next`, `addFromCell_eq_next`). -/

namespace Sys2Proof.Machine

/-! ### Writing a cell's own bytes back (R111) -/

/-- The bytes of a word that is read are the bytes of memory, in address order, in either byte order. (The lemmas on
`++` find the bytes by the width of each part, so simp must not add the widths up.) -/
theorem wordBytes_readWord (m : Memory) (o : ByteOrder) (a : Nat) :
    wordBytes o (m.readWord o a) = (List.range 4).map fun i => m.read (a + i) := by
  cases o <;>
    simp [wordBytes, Memory.readWord, List.range_succ, BitVec.extractLsb'_append_eq_of_le,
      BitVec.extractLsb'_append_eq_of_add_le, -Nat.reduceAdd]

/-- Bytes written back where they were read change no byte of canonical memory. -/
theorem read_writeList_own {m : Memory} (h : m.wf = true) (a n b : Nat) :
    (m.writeList a ((List.range n).map fun i => m.read (a + i))).read b = m.read b := by
  by_cases hb : outside b a n
  · exact read_writeList_outside m a _ (by simpa using hb)
  · obtain ⟨i, rfl⟩ : ∃ i, b = a + i := Nat.exists_eq_add_of_le (by unfold outside at hb; omega)
    have hi : i < n := by unfold outside at hb; omega
    rw [read_writeList_inside h a _ (by simpa using hi)]
    simp

/-- A stack cell that is given the value it holds. -/
theorem read_memWithCell_own {s : State} (h : s.mem.wf = true) (k : CellIndex) (b : Nat) :
    (s.memWithCell k (s.cell k)).read b = s.mem.read b := by
  rw [State.memWithCell, Memory.writeWord, State.cell, wordBytes_readWord]
  exact read_writeList_own h (s.sa k) 4 b

/-- Settles O22: POP writes `A` into the cell it was read from. -/
theorem popChangesNoByteOfMemory : Obligations.PopChangesNoByteOfMemory := by
  intro s t hs h a
  obtain ⟨-, -, -, hmem, -⟩ := wf_iff.mp hs
  obtain ⟨-, rfl⟩ := storeToCell_eq_next.mp h
  exact read_memWithCell_own hmem 0#30 a

/-! ### Where each form goes on -/

section
variable {s : State} {k : CellIndex}

theorem storeToCell_of_ready (hread : s.cellReadable 0#30 = true) (hwrite : s.cellWritable k = true) :
    storeToCell k s = .next (s.landing s.nextPc (s.spPlus 1#30) (s.memWithCell k (s.cell 0#30))) :=
  storeToCell_eq_next.mpr ⟨⟨hread, hwrite⟩, rfl⟩

theorem loadFromCell_of_ready (hpush : s.pushReady = true) (hread : s.cellReadable k = true) :
    loadFromCell k s = .next (s.landing s.nextPc (s.spPlus (-1#30)) (s.memWithCell (-1#30) (s.cell k))) :=
  loadFromCell_eq_next.mpr ⟨⟨hread, hpush⟩, rfl⟩

theorem addFromCell_of_ready (htop : s.unaryReady = true) (hread : s.cellReadable k = true) :
    addFromCell k s = .next (s.landing s.nextPc s.sp (s.memWithCell 0#30 (s.cell 0#30 + s.cell k))) :=
  addFromCell_eq_next.mpr ⟨⟨htop, hread⟩, rfl⟩

theorem unaryReady_iff : s.unaryReady = true ↔ s.cellReadable 0#30 = true ∧ s.cellWritable 0#30 = true := by
  simp [State.unaryReady]

end

/-- Settles O21: the three are one form, at the cells `x`, 0 and 1. -/
theorem storespStoresTheTopAndPops : Obligations.StorespStoresTheTopAndPops := by
  intro s
  refine ⟨fun x => ⟨rfl, storeToCell_of_ready⟩, ⟨decode_encode .pop, fun htop => ?_⟩,
    decode_encode .popdown, storeToCell_of_ready⟩
  obtain ⟨hread, hwrite⟩ := unaryReady_iff.mp htop
  exact storeToCell_of_ready hread hwrite

/-- Settles O23: the three are one form, at the cells `x`, 0 and 1. -/
theorem loadspPushesACell : Obligations.LoadspPushesACell :=
  fun _ hpush => ⟨fun _ => ⟨rfl, loadFromCell_of_ready hpush⟩,
    ⟨decode_encode .dup, loadFromCell_of_ready hpush⟩,
    decode_encode .dupstackb, loadFromCell_of_ready hpush⟩

/-- Settles O24: the three are one form, at the cells `x`, 1 and 0; a word added to itself is shifted left by one. -/
theorem addspAddsACellToTheTop : Obligations.AddspAddsACellToTheTop := by
  intro s htop
  refine ⟨fun x => ⟨rfl, addFromCell_of_ready htop⟩, ⟨decode_encode .addtop, addFromCell_of_ready htop⟩,
    decode_encode .shift, ?_⟩
  obtain ⟨hread, -⟩ := unaryReady_iff.mp htop
  have hdouble : s.cell 0#30 <<< 1 = s.cell 0#30 + s.cell 0#30 := by
    rw [BitVec.shiftLeft_eq_mul_twoPow]
    exact BitVec.mul_two
  rw [hdouble]
  exact addFromCell_of_ready htop hread

end Sys2Proof.Machine
end

section
/-! The core group (spec/42_core_group.md R130 to R145) with the optional opcodes that share its operand forms (R174,
R200 to R203, R208, R210), and two instructions together: POPPC after a call (R248), POPSP after PUSHSP (R143). -/

namespace Sys2Proof.Machine

/-! ### Where each form goes on -/

section
variable {s : State}

theorem pushForm_of_ready (hpush : s.pushReady = true) (v : Word) :
    pushForm v s = .next (s.landing s.nextPc (s.spPlus (-1#30)) (s.memWithCell (-1#30) v)) :=
  pushForm_eq_next.mpr ⟨hpush, rfl⟩

theorem unaryForm_of_ready (htop : s.unaryReady = true) (f : Word → Word) :
    unaryForm f s = .next (s.landing s.nextPc s.sp (s.memWithCell 0#30 (f (s.cell 0#30)))) :=
  unaryForm_eq_next.mpr ⟨htop, rfl⟩

theorem binaryForm_of_ready (hready : s.binaryReady = true) (f : Word → Word → Word) :
    binaryForm f s =
      .next (s.landing s.nextPc (s.spPlus 1#30) (s.memWithCell 1#30 (f (s.cell 0#30) (s.cell 1#30)))) :=
  binaryForm_eq_next.mpr ⟨hready, rfl⟩

theorem returnFromCall_of_readable (hread : s.cellReadable 0#30 = true) :
    s.returnFromCall = .next (s.landing (wrapPc s.cfg (s.cell 0#30)) (s.spPlus 1#30) s.mem) :=
  returnFromCall_eq_next.mpr ⟨hread, rfl⟩

/-- POPSP has no operand form of its own. -/
theorem exec_popsp_of_readable (hread : s.cellReadable 0#30 = true) :
    exec .popsp s = .next (s.landing s.nextPc (wrapSp s.cfg ((s.cell 0#30).extractLsb' 2 30)) s.mem) := by
  simp only [exec, execPopsp, readStk_of_readable hread, bind_next]
  rfl

/-- POPPCREL, where it is built, has no operand form of its own. -/
theorem exec_poppcrel_of_readable (hb : s.cfg.builds 57 = true) (hread : s.cellReadable 0#30 = true) :
    exec .poppcrel s = .next (s.landing (wrapPc s.cfg (s.pc + s.cell 0#30)) (s.spPlus 1#30) s.mem) := by
  have hpop : s.pop = .next (s.cell 0#30, s.moveSp 1#30) := pop_eq_next.mpr ⟨hread, rfl⟩
  simp only [exec, execPoppcrel, whereBuilt_of_built hb, hpop, bind_next]
  rfl

theorem loadForm_of_ready {w : Width} (htop : s.unaryReady = true) (hmod : (s.cell 0#30).toNat % bytesIn w = 0)
    (hcached : s.hitsCachedCells (s.cell 0#30).toNat (bytesIn w) = false)
    (hplain : s.plain (s.cell 0#30).toNat (bytesIn w) = true) :
    loadForm w s = .next (s.landing s.nextPc s.sp (s.memWithCell 0#30 (s.dataAt w (s.cell 0#30).toNat))) :=
  loadForm_eq_next.mpr ⟨⟨htop, aligned_of_mod_eq_zero hmod, hcached, hplain⟩, rfl⟩

theorem storeForm_of_ready {w : Width} (hread : s.cellReadable 0#30 = true) (hread' : s.cellReadable 1#30 = true)
    (hmod : (s.cell 0#30).toNat % bytesIn w = 0) (hwrite : s.writable (s.cell 0#30).toNat (bytesIn w) = true) :
    storeForm w s = .next (s.landing s.nextPc (s.spPlus 2#30)
      (s.mem.writeList (s.cell 0#30).toNat (dataBytes s.cfg.byteOrder w (s.cell 1#30)))) :=
  storeForm_eq_next.mpr ⟨⟨⟨hread, hread'⟩, aligned_of_mod_eq_zero hmod, hwrite⟩, rfl⟩

end

/-! ### A cell just written that is the new top of the stack -/

section
variable {s : State} {p : Word} {q k : CellIndex} {v : Word}
  (hsa : (s.landing p q (s.memWithCell k v)).sa 0#30 = s.sa k)
include hsa

theorem cell_landing_memWithCell (hs : s.wf = true) : (s.landing p q (s.memWithCell k v)).cell 0#30 = v := by
  obtain ⟨-, -, -, hmem, -⟩ := wf_iff.mp hs
  rw [State.cell, hsa]
  exact readWord_writeWord hmem _ _ v

theorem cellReadable_landing_memWithCell (hw : s.cellWritable k = true) :
    (s.landing p q (s.memWithCell k v)).cellReadable 0#30 = true := by
  rw [State.cellReadable, hsa, plain_landing]
  exact cellReadable_of_cellWritable hw

/-- A POPPC whose top cell was given the return address goes there, and pops the cell. -/
theorem exec_poppc_of_return_address (hs : s.wf = true) (hw : s.cellWritable k = true) (hv : v = s.nextPc)
    {q' : CellIndex} (hq : wrapSp s.cfg (q + 1#30) = q') :
    ∃ u, exec .poppc (s.landing p q (s.memWithCell k v)) = .next u ∧ u.pc = s.nextPc ∧ u.sp = q' := by
  refine ⟨_, returnFromCall_of_readable (cellReadable_landing_memWithCell hsa hw), ?_, hq⟩
  rw [landing_pc, cell_landing_memWithCell hsa hs, hv]
  exact wrapPc_wrapPc s.cfg (s.pc + 1#32)

end

/-- A push makes the cell it has written the top of the stack. -/
theorem sa_landing_push (s : State) (p : Word) (m : Memory) :
    (s.landing p (s.spPlus (-1#30)) m).sa 0#30 = s.sa (-1#30) :=
  sa_landing_spPlus s p (-1#30) m 0#30

/-! ### `sp` after a push and a pop -/

theorem wrapSp_sp {s : State} (hs : s.wf = true) : wrapSp s.cfg s.sp = s.sp := by
  obtain ⟨hcfg, -, hsp, -⟩ := wf_iff.mp hs
  have hle := addrBits_le_of_wf hcfg
  exact wrapSp_of_lt (by omega) hsp

/-- One cell down and one cell up again. -/
theorem wrapSp_push_pop {s : State} (hs : s.wf = true) : wrapSp s.cfg (s.spPlus (-1#30) + 1#30) = s.sp := by
  rw [State.spPlus, wrapSp_wrapSp_add, BitVec.add_assoc]
  exact (congrArg (wrapSp s.cfg) (BitVec.add_zero s.sp)).trans (wrapSp_sp hs)

/-- The cell index in the byte address that software sees (R23). -/
theorem extractLsb'_spb (s : State) : s.spb.extractLsb' 2 30 = s.sp :=
  BitVec.extractLsb'_append_eq_left

/-- Settles O54: either call leaves the return address in the top cell, and POPPC goes there. -/
theorem poppcReturnsFromCalls : Obligations.PoppcReturnsFromCalls := by
  intro s t hs
  refine ⟨fun x h => ?emulate, fun hb h => ?call⟩
  case emulate =>
    obtain ⟨hpush, rfl⟩ := emulateCall_eq_next.mp h
    exact exec_poppc_of_return_address (sa_landing_push s _ _) hs hpush rfl (wrapSp_push_pop hs)
  case call =>
    obtain ⟨htop, rfl⟩ := callForm_eq_next.mp ((whereBuilt_of_built hb).symm.trans h)
    obtain ⟨-, hwrite⟩ := unaryReady_iff.mp htop
    exact exec_poppc_of_return_address rfl hs hwrite rfl rfl

/-- Settles O55: the top cell holds the old byte address, whose upper bits are the old `sp`. -/
theorem pushspThenPopspRestoresSp : Obligations.PushspThenPopspRestoresSp := by
  intro s t hs h
  obtain ⟨hpush, rfl⟩ := pushForm_eq_next.mp h
  obtain ⟨-, -, -, hmem, -⟩ := wf_iff.mp hs
  have hsa := sa_landing_push s s.nextPc (s.memWithCell (-1#30) s.spb)
  refine ⟨_, exec_popsp_of_readable (cellReadable_landing_memWithCell hsa hpush), ?sp,
    fun a ha => read_memWithCell_outside s.spb ha, readWord_writeWord hmem _ _ s.spb⟩
  case sp =>
    rw [landing_sp, cell_landing_memWithCell hsa hs, extractLsb'_spb, landing_cfg]
    exact wrapSp_sp hs

/-! ### One instruction -/

/-- Settles O25: BREAKPOINT's meaning is this record update, with no condition on the state. -/
theorem breakpointEmitsBreak : Obligations.BreakpointEmitsBreak :=
  ⟨decode_encode .breakpoint, fun _ => rfl⟩

/-- Settles O26: the four bytes' own names, each with a refusal for its meaning. -/
theorem unavailableOpcodesAreRefused : Obligations.UnavailableOpcodesAreRefused :=
  ⟨⟨decode_encode .shiftlleft, decode_encode .popint, decode_encode .compare, decode_encode .sncpy⟩,
    fun _ => ⟨rfl, rfl, rfl, rfl⟩⟩

/-- Settles O27: both push, the one `4 * sp` and the other its own address. -/
theorem pushspAndPushpcPushAddresses : Obligations.PushspAndPushpcPushAddresses :=
  ⟨⟨decode_encode .pushsp, decode_encode .pushpc⟩, fun s hpush =>
    ⟨pushForm_of_ready hpush s.spb,
      fun hb => (whereBuilt_of_built hb).trans (pushForm_of_ready hpush s.pc),
      whereBuilt_of_unbuilt⟩⟩

/-- Settles O28: the return from a call, and the same pop with the target counted from `PC0`. -/
theorem poppcAndPoppcrelJump : Obligations.PoppcAndPoppcrelJump :=
  ⟨⟨decode_encode .poppc, decode_encode .poppcrel⟩, fun _ =>
    ⟨returnFromCall_of_readable, exec_poppcrel_of_readable, whereBuilt_of_unbuilt⟩⟩

/-- Settles O29: the three are one form, with the three operations. -/
theorem addAndOrCombineTheTopCells : Obligations.AddAndOrCombineTheTopCells :=
  ⟨⟨decode_encode .add, decode_encode .and, decode_encode .or⟩, fun _ hready =>
    ⟨binaryForm_of_ready hready _, binaryForm_of_ready hready _, binaryForm_of_ready hready _⟩⟩

/-- Bit `n` of the reversed word is bit `31 - n` of the word (R140). -/
theorem getLsbD_flipBits (a : Word) {n : Nat} (hn : n < 32) : (flipBits a).getLsbD n = a.getLsbD (31 - n) := by
  rw [flipBits, BitVec.getLsbD_reverse, BitVec.getMsbD]
  simp [hn]

/-- Settles O30: the three are one form; FLIP's word is `flipBits A`, and `0 - A` is the negative of `A`. -/
theorem notFlipNegReplaceTheTop : Obligations.NotFlipNegReplaceTheTop := by
  refine ⟨⟨decode_encode .not, decode_encode .flip, decode_encode .neg⟩, fun s =>
    ⟨fun htop => ⟨unaryForm_of_ready htop _, ?flip, fun hb => ?neg⟩, whereBuilt_of_unbuilt⟩⟩
  case flip => exact ⟨flipBits (s.cell 0#30), fun n hn => getLsbD_flipBits _ hn, unaryForm_of_ready htop _⟩
  case neg =>
    rw [← BitVec.zero_sub]
    exact (whereBuilt_of_built hb).trans (unaryForm_of_ready htop _)

/-- Settles O31: NOP's meaning is the common tail alone (`finish_eq`). -/
theorem nopDoesNothing : Obligations.NopDoesNothing :=
  ⟨decode_encode .nop, finish_eq⟩

/-- Settles O32: the three are one form at three widths; every address is a multiple of 1. -/
theorem loadsReplaceTheAddressByTheData : Obligations.LoadsReplaceTheAddressByTheData := by
  refine ⟨⟨decode_encode .load, decode_encode .loadb, decode_encode .loadh⟩, fun s =>
    ⟨?word, ?byte, ?half, whereBuilt_of_unbuilt, whereBuilt_of_unbuilt⟩⟩
  case word => exact loadForm_of_ready (w := .word)
  case byte =>
    intro hb htop hcached hplain
    exact (whereBuilt_of_built hb).trans (loadForm_of_ready htop (Nat.mod_one _) hcached hplain)
  case half =>
    intro hb htop hmod hcached hplain
    exact (whereBuilt_of_built hb).trans (loadForm_of_ready htop hmod hcached hplain)

/-- Settles O33: the three are one form at three widths; every address is a multiple of 1. -/
theorem storesWriteTheDataAndPopTwo : Obligations.StoresWriteTheDataAndPopTwo := by
  refine ⟨⟨decode_encode .store, decode_encode .storeb, decode_encode .storeh⟩, fun s =>
    ⟨fun hread hread' => ⟨?word, ?byte, ?half⟩, whereBuilt_of_unbuilt, whereBuilt_of_unbuilt⟩⟩
  case word => exact storeForm_of_ready (w := .word) hread hread'
  case byte =>
    intro hb hwrite
    exact (whereBuilt_of_built hb).trans (storeForm_of_ready (w := .byte) hread hread' (Nat.mod_one _) hwrite)
  case half =>
    intro hb hmod hwrite
    exact (whereBuilt_of_built hb).trans (storeForm_of_ready (w := .half) hread hread' hmod hwrite)

/-- Settles O34: POPSP reads the top cell and writes no memory (`exec_popsp_of_readable`). -/
theorem popspLoadsSp : Obligations.PopspLoadsSp :=
  ⟨decode_encode .popsp, fun _ => exec_popsp_of_readable⟩

end Sys2Proof.Machine
end

section
/-! The optional ALU instructions (spec/43_optional_alu.md R160 to R176) with CALLPCREL, which shares CALL's form
(R214): each instruction's form where it is built, the word it computes, and the emulation calls that stand alone. -/

namespace Sys2Proof.Machine

/-! ### Where each form goes on -/

section
variable {s : State} {op : Nat}

theorem whereBuilt_binaryForm_of_ready (hb : s.cfg.builds op = true) (hready : s.binaryReady = true)
    (f : Word → Word → Word) :
    s.whereBuilt op (binaryForm f s) =
      .next (s.landing s.nextPc (s.spPlus 1#30) (s.memWithCell 1#30 (f (s.cell 0#30) (s.cell 1#30)))) :=
  (whereBuilt_of_built hb).trans (binaryForm_of_ready hready f)

theorem whereBuilt_callForm_of_ready (hb : s.cfg.builds op = true) (htop : s.unaryReady = true) (g : Word → Word) :
    s.whereBuilt op (callForm g s) =
      .next (s.landing (wrapPc s.cfg (g (s.cell 0#30))) s.sp (s.memWithCell 0#30 s.nextPc)) :=
  (whereBuilt_of_built hb).trans (callForm_eq_next.mpr ⟨htop, rfl⟩)

end

/-! ### The word of a comparison (R162 to R165, R172, R173) -/

theorem boolWord_decide (p : Prop) [Decidable p] : boolWord (decide p) = if p then 1#32 else 0#32 := by
  simp only [boolWord, decide_eq_true_iff]

theorem boolWord_beq (a b : Word) : boolWord (a == b) = if a = b then 1#32 else 0#32 := by
  simp only [boolWord, beq_iff_eq]

theorem boolWord_bne (a b : Word) : boolWord (a != b) = if a = b then 0#32 else 1#32 := by
  simp only [boolWord, bne_iff_ne, ite_not]

/-! ### The bits of a shifted word (R168 to R170) -/

/-- Bit `i` comes from the bit `unsigned(A)` places above it; above bit 31 every bit reads 0, so a count of 32 or more
needs no case of its own in the statement. -/
theorem getLsbD_logicalShiftRight (a b : Word) (i : Nat) :
    (logicalShiftRight a b).getLsbD i = b.getLsbD (i + a.toNat) := by
  unfold logicalShiftRight
  split
  case isTrue => rw [BitVec.getLsbD_ushiftRight, Nat.add_comm]
  case isFalse hcount => rw [BitVec.getLsbD_zero, BitVec.getLsbD_of_ge b _ (by omega)]

theorem getLsbD_shiftLeft_word (a b : Word) {i : Nat} (hi : i < 32) :
    (shiftLeft a b).getLsbD i = (decide (a.toNat ≤ i) && b.getLsbD (i - a.toNat)) := by
  unfold shiftLeft
  split
  case isTrue => simp only [BitVec.getLsbD_shiftLeft, hi, decide_true, Bool.true_and, ← decide_not, Nat.not_lt]
  case isFalse hcount =>
    have hlow : ¬ a.toNat ≤ i := by omega
    simp [hlow]

/-- A count of 31 or more reads the sign at every bit: at bit 0 with a count of 31 it is bit 31 itself. -/
theorem ite_getLsbD_of_sign_le (b : Word) (i : Nat) {n : Nat} (hn : 31 ≤ n) :
    (if i + n < 32 then b.getLsbD (i + n) else b.getLsbD 31) = b.getLsbD 31 := by
  split
  case isTrue hlt => rw [show i + n = 31 by omega]
  case isFalse => rfl

/-- The cut of the count to 31 loses nothing: a count above it puts the sign in every bit. -/
theorem getLsbD_arithmeticShiftRight (a b : Word) {i : Nat} (hi : i < 32) :
    (arithmeticShiftRight a b).getLsbD i =
      if i + a.toNat < 32 then b.getLsbD (i + a.toNat) else b.getLsbD 31 := by
  have hsign : b.msb = b.getLsbD 31 := BitVec.msb_eq_getLsbD_last b
  have hrange : decide (32 ≤ i) = false := by simpa using hi
  rw [arithmeticShiftRight, BitVec.getLsbD_sshiftRight, hsign, hrange, Bool.not_false, Bool.true_and,
    Nat.add_comm]
  rcases Nat.le_total a.toNat 31 with hcount | hcount
  · rw [Nat.min_eq_left hcount]
  · rw [Nat.min_eq_right hcount, ite_getLsbD_of_sign_le b i hcount]
    exact ite_getLsbD_of_sign_le b i le_rfl

/-! ### One instruction -/

/-- Settles O38: the word of each shift is given bit by bit (`getLsbD_logicalShiftRight`, `getLsbD_shiftLeft_word`,
`getLsbD_arithmeticShiftRight`). -/
theorem shiftsUseTheWholeCount : Obligations.ShiftsUseTheWholeCount := by
  refine ⟨⟨decode_encode .lshiftright, decode_encode .ashiftleft, decode_encode .ashiftright⟩, fun s =>
    ⟨fun hready => ⟨fun hb => ?right, fun hb => ?left, fun hb => ?arithmetic⟩,
      whereBuilt_of_unbuilt, whereBuilt_of_unbuilt, whereBuilt_of_unbuilt⟩⟩
  case right =>
    exact ⟨_, fun i _ => getLsbD_logicalShiftRight _ _ i, whereBuilt_binaryForm_of_ready hb hready _⟩
  case left =>
    exact ⟨_, fun _ hi => getLsbD_shiftLeft_word _ _ hi, whereBuilt_binaryForm_of_ready hb hready _⟩
  case arithmetic =>
    exact ⟨_, fun _ hi => getLsbD_arithmeticShiftRight _ _ hi, whereBuilt_binaryForm_of_ready hb hready _⟩

/-- Settles O20: each is the emulation call of its own number `x`, and its entry is `32 * x`. -/
theorem opcodesWithoutHardwareEffectCallTheirEntry : Obligations.OpcodesWithoutHardwareEffectCallTheirEntry :=
  ⟨⟨decode_encode .sncpy2, decode_encode .wcpy, decode_encode .swap, decode_encode .config, decode_encode .syscall⟩,
    fun _ hpush => ⟨exec_emulate_of_pushReady hpush 0#5, exec_emulate_of_pushReady hpush 1#5,
      exec_emulate_of_pushReady hpush 8#5, exec_emulate_of_pushReady hpush 26#5,
      exec_emulate_of_pushReady hpush 28#5⟩⟩

/-- Settles O35: the four are one form, with the four conditions as a word (`boolWord_decide`). -/
theorem comparisonsLeaveOneOrZero : Obligations.ComparisonsLeaveOneOrZero := by
  refine ⟨⟨decode_encode .lessthan, decode_encode .lessthanorequal, decode_encode .ulessthan,
    decode_encode .ulessthanorequal⟩, fun s => ⟨fun hready => ?built, whereBuilt_of_unbuilt, whereBuilt_of_unbuilt,
      whereBuilt_of_unbuilt, whereBuilt_of_unbuilt⟩⟩
  simp only [← boolWord_decide]
  exact ⟨fun hb => whereBuilt_binaryForm_of_ready hb hready _, fun hb => whereBuilt_binaryForm_of_ready hb hready _,
    fun hb => whereBuilt_binaryForm_of_ready hb hready _, fun hb => whereBuilt_binaryForm_of_ready hb hready _⟩

/-- Settles O36: the one form again, with equality of words (`boolWord_beq`) and its opposite (`boolWord_bne`). -/
theorem eqAndNeqCompareAllBits : Obligations.EqAndNeqCompareAllBits := by
  refine ⟨⟨decode_encode .eq, decode_encode .neq⟩, fun s =>
    ⟨fun hready => ⟨fun hb => ?eq, fun hb => ?neq⟩, whereBuilt_of_unbuilt, whereBuilt_of_unbuilt⟩⟩
  case eq =>
    rw [← boolWord_beq]
    exact whereBuilt_binaryForm_of_ready hb hready _
  case neq =>
    rw [← boolWord_bne]
    exact whereBuilt_binaryForm_of_ready hb hready _

/-- Settles O37: the three are one form; the product of two words is that of their numbers modulo `2^32`. -/
theorem multSubXorCombineTheTopCells : Obligations.MultSubXorCombineTheTopCells := by
  refine ⟨⟨decode_encode .mult, decode_encode .sub, decode_encode .xor⟩, fun s =>
    ⟨fun hready => ⟨fun hb => ?mult, fun hb => ?sub, fun hb => ?xor⟩,
      whereBuilt_of_unbuilt, whereBuilt_of_unbuilt, whereBuilt_of_unbuilt⟩⟩
  case mult =>
    rw [BitVec.ofNat_mul, BitVec.ofNat_toNat, BitVec.ofNat_toNat, BitVec.setWidth_eq, BitVec.setWidth_eq]
    exact whereBuilt_binaryForm_of_ready hb hready _
  case sub => exact whereBuilt_binaryForm_of_ready hb hready _
  case xor => exact whereBuilt_binaryForm_of_ready hb hready _

/-- Settles O39: the two are one form, with the target `A` and the target `PC0 + A`. -/
theorem callsReplaceTheTargetByTheReturnAddress : Obligations.CallsReplaceTheTargetByTheReturnAddress :=
  ⟨⟨decode_encode .call, decode_encode .callpcrel⟩, fun _ =>
    ⟨fun htop => ⟨fun hb => whereBuilt_callForm_of_ready hb htop _, fun hb => whereBuilt_callForm_of_ready hb htop _⟩,
      whereBuilt_of_unbuilt, whereBuilt_of_unbuilt⟩⟩

end Sys2Proof.Machine
end

section
/-! The optional instructions of opcodes 53 to 56, 61 and 62 (spec/44_optional_mem_branch.md R204 to R207, R212, R213):
where DIV and MOD have a result and what its number is, each instruction's form where it is built, and the word it
leaves. -/

namespace Sys2Proof.Machine

/-! ### Which divisions have a result (R204, R205) -/

theorem divisionOpen_iff {a b : Word} :
    divisionOpen a b = true ↔ a = 0#32 ∨ (b = 0x80000000#32 ∧ a = 0xFFFFFFFF#32) := by
  simp only [divisionOpen, Bool.or_eq_true, Bool.and_eq_true, beq_iff_eq]

theorem divisionOpen_eq_false_iff {a b : Word} :
    divisionOpen a b = false ↔ a ≠ 0#32 ∧ ¬(b = 0x80000000#32 ∧ a = 0xFFFFFFFF#32) := by
  rw [← Bool.not_eq_true, divisionOpen_iff, not_or]

theorem quotient_eq_some_iff {a b q : Word} :
    quotient a b = some q ↔ divisionOpen a b = false ∧ q = BitVec.ofInt 32 (b.toInt.tdiv a.toInt) := by
  cases h : divisionOpen a b <;> simp [quotient, h, eq_comm]

/-- What is left of the dividend is the truncated remainder. -/
theorem remainder_eq_some_iff {a b r : Word} :
    remainder a b = some r ↔ divisionOpen a b = false ∧ r = BitVec.ofInt 32 (b.toInt.tmod a.toInt) := by
  rw [Int.tmod_def, Int.mul_comm]
  cases h : divisionOpen a b <;> simp [remainder, h, eq_comm]

theorem quotient_of_open {a b : Word} (h : divisionOpen a b = true) : quotient a b = none := if_pos h
theorem remainder_of_open {a b : Word} (h : divisionOpen a b = true) : remainder a b = none := if_pos h

/-! ### The numbers of the two results (R205) -/

/-- A quotient overflows for one pair of operands only, `-2^31` by -1, and that division is open. -/
theorem toInt_quotient {a b q : Word} (h : quotient a b = some q) : q.toInt = b.toInt.tdiv a.toInt := by
  obtain ⟨hdefined, rfl⟩ := quotient_eq_some_iff.mp h
  obtain ⟨-, hfits⟩ := divisionOpen_eq_false_iff.mp hdefined
  rw [BitVec.toInt_ofInt, ← BitVec.toInt_sdiv]
  exact BitVec.toInt_sdiv_of_ne_or_ne b a (not_and_or.mp hfits)

/-- A remainder always fits in a word. -/
theorem toInt_remainder {a b r : Word} (h : remainder a b = some r) : r.toInt = b.toInt.tmod a.toInt := by
  obtain ⟨-, rfl⟩ := remainder_eq_some_iff.mp h
  rw [← BitVec.toInt_srem, BitVec.ofInt_toInt]

theorem natAbs_tmod_lt {y : Int} (hy : y ≠ 0) (x : Int) : (x.tmod y).natAbs < y.natAbs := by
  rw [Int.natAbs_tmod]
  exact Nat.mod_lt _ (Int.natAbs_pos.mpr hy)

/-- The truncated remainder is 0 or has the sign of the dividend. -/
theorem tmod_mul_self_nonneg (x y : Int) : 0 ≤ x.tmod y * x := by
  rcases Int.le_total 0 x with hx | hx
  · exact mul_nonneg (Int.tmod_nonneg y hx) hx
  · have h := mul_nonneg (Int.tmod_nonneg y (neg_nonneg.mpr hx)) (neg_nonneg.mpr hx)
    rwa [Int.neg_tmod, neg_mul_neg] at h

/-- Settles O45: the two words are the truncated quotient and remainder themselves (`toInt_quotient`,
`toInt_remainder`), and those have the three properties. -/
theorem quotientAndRemainderMakeTheDividend : Obligations.QuotientAndRemainderMakeTheDividend := by
  intro a b q r hq hr
  obtain ⟨hdefined, -⟩ := quotient_eq_some_iff.mp hq
  obtain ⟨hne, -⟩ := divisionOpen_eq_false_iff.mp hdefined
  have hdivisor : a.toInt ≠ 0 := fun h => hne (BitVec.eq_of_toInt_eq h)
  rw [toInt_quotient hq, toInt_remainder hr]
  exact ⟨Int.tdiv_mul_add_tmod _ _, natAbs_tmod_lt hdivisor _, tmod_mul_self_nonneg _ _⟩

/-! ### Where each form goes on -/

section
variable {s : State} {op : Nat}

theorem whereBuilt_branchForm_of_readable (hb : s.cfg.builds op = true) (hread : s.cellReadable 0#30 = true)
    (hread' : s.cellReadable 1#30 = true) (taken : Word → Bool) :
    s.whereBuilt op (branchForm taken s) =
      .next (s.landing (if taken (s.cell 1#30) then wrapPc s.cfg (s.pc + s.cell 0#30) else s.nextPc)
        (s.spPlus 2#30) s.mem) :=
  (whereBuilt_of_built hb).trans (branchForm_eq_next.mpr ⟨⟨hread, hread'⟩, rfl⟩)

theorem whereBuilt_binaryOpenForm_of_some {f : Word → Word → Option Word} {v : Word} (hb : s.cfg.builds op = true)
    (hready : s.binaryReady = true) (hf : f (s.cell 0#30) (s.cell 1#30) = some v) :
    s.whereBuilt op (binaryOpenForm f s) =
      .next (s.landing s.nextPc (s.spPlus 1#30) (s.memWithCell 1#30 v)) := by
  rw [whereBuilt_of_built hb, binaryOpenForm_eq_next, hf]
  exact ⟨hready, rfl⟩

theorem whereBuilt_binaryOpenForm_of_none {f : Word → Word → Option Word} (hb : s.cfg.builds op = true)
    (hready : s.binaryReady = true) (hf : f (s.cell 0#30) (s.cell 1#30) = none) :
    s.whereBuilt op (binaryOpenForm f s) = .next
      { s.landing s.nextPc (s.spPlus 1#30) (s.memWithCell 1#30 (any32 s.freeDraws)) with
        freeDraws := s.freeDraws + 1 } := by
  rw [whereBuilt_of_built hb, binaryOpenForm_eq_next, hf]
  exact ⟨hready, rfl⟩

end

/-! ### The words of PUSHSPADD and HALFMULT (R212, R213) -/

/-- `SPB` is four times `sp` (R23), and the shift by two places multiplies `A` by four. -/
theorem spb_add_shiftLeft_two (s : State) (a : Word) :
    s.spb + a <<< 2 = BitVec.ofNat 32 (4 * s.sp.toNat + 4 * a.toNat) := by
  apply BitVec.eq_of_toNat_eq
  have hspb : s.spb.toNat = 4 * s.sp.toNat := by
    rw [State.spb, BitVec.toNat_append, BitVec.toNat_ofNat, Nat.shiftLeft_eq, Nat.zero_mod, Nat.or_zero, Nat.mul_comm]
  rw [BitVec.toNat_add, hspb, BitVec.toNat_shiftLeft, Nat.shiftLeft_eq, Nat.add_mod_mod, BitVec.toNat_ofNat,
    Nat.mul_comm a.toNat]

theorem widenHalf_zero (v : Word) : widenHalf .zero v = BitVec.ofNat 32 (v.toNat % 2 ^ 16) := by
  rw [← BitVec.toNat_setWidth, BitVec.ofNat_toNat]
  rfl

/-- The sign extension of a word is by definition the wider word of the same number. -/
theorem widenHalf_sign (v : Word) : widenHalf .sign v = BitVec.ofInt 32 (v.setWidth 16).toInt := rfl

theorem halfProduct_zero (a b : Word) :
    halfProduct .zero a b = BitVec.ofNat 32 (a.toNat % 2 ^ 16 * (b.toNat % 2 ^ 16)) := by
  rw [halfProduct, widenHalf_zero, widenHalf_zero, BitVec.ofNat_mul]

theorem halfProduct_sign (a b : Word) :
    halfProduct .sign a b = BitVec.ofInt 32 ((a.setWidth 16).toInt * (b.setWidth 16).toInt) := by
  rw [halfProduct, widenHalf_sign, widenHalf_sign, BitVec.ofInt_mul]

/-! ### One instruction -/

/-- Settles O40: the two are one form, with the test of `B` and its opposite. -/
theorem branchesTestTheSecondCellAndPopTwo : Obligations.BranchesTestTheSecondCellAndPopTwo := by
  refine ⟨⟨decode_encode .eqbranch, decode_encode .neqbranch⟩, fun s =>
    ⟨fun hread hread' => ⟨fun hb => ?eq, fun hb => ?neq⟩, whereBuilt_of_unbuilt, whereBuilt_of_unbuilt⟩⟩
  case eq =>
    have h := whereBuilt_branchForm_of_readable hb hread hread' fun b => b == 0#32
    simp only [beq_iff_eq] at h
    exact h
  case neq =>
    have h := whereBuilt_branchForm_of_readable hb hread hread' fun b => b != 0#32
    simp only [bne_iff_ne, ite_not] at h
    exact h

/-- Settles O41: the one-operand form with the word `SPB + (A << 2)` (`spb_add_shiftLeft_two`). -/
theorem pushspaddAddsFourTimesTheTop : Obligations.PushspaddAddsFourTimesTheTop := by
  refine ⟨decode_encode .pushspadd, fun s => ⟨fun hb htop => ?built, whereBuilt_of_unbuilt⟩⟩
  rw [← spb_add_shiftLeft_two]
  exact (whereBuilt_of_built hb).trans (unaryForm_of_ready htop _)

/-- Settles O42: the two-operand form with the product of the widened halves, as numbers for either extension
(`halfProduct_zero`, `halfProduct_sign`). -/
theorem halfmultMultipliesTheLowHalves : Obligations.HalfmultMultipliesTheLowHalves := by
  refine ⟨decode_encode .halfmult, fun s => ⟨fun hb hready => ?built, whereBuilt_of_unbuilt⟩⟩
  refine (whereBuilt_binaryForm_of_ready hb hready (halfProduct s.cfg.halfmultExt)).trans ?_
  cases s.cfg.halfmultExt
  case zero => rw [halfProduct_zero]
  case sign => rw [halfProduct_sign]

/-- Settles O43: the divisions that have a result, each with its own (`quotient_eq_some_iff`,
`remainder_eq_some_iff`). -/
theorem divAndModRoundTowardZero : Obligations.DivAndModRoundTowardZero := by
  refine ⟨⟨decode_encode .div, decode_encode .mod⟩, fun s =>
    ⟨fun hready hne hfits => ?built, whereBuilt_of_unbuilt, whereBuilt_of_unbuilt⟩⟩
  have hdefined := divisionOpen_eq_false_iff.mpr ⟨hne, hfits⟩
  exact ⟨fun hb => whereBuilt_binaryOpenForm_of_some hb hready (quotient_eq_some_iff.mpr ⟨hdefined, rfl⟩),
    fun hb => whereBuilt_binaryOpenForm_of_some hb hready (remainder_eq_some_iff.mpr ⟨hdefined, rfl⟩)⟩

/-- Settles O44: the other divisions, each with no result of its own (`quotient_of_open`, `remainder_of_open`). -/
theorem openDivisionsRunWithAFreeValue : Obligations.OpenDivisionsRunWithAFreeValue := by
  intro s hready hoperands
  have hopen := divisionOpen_iff.mpr hoperands
  exact ⟨fun hb => whereBuilt_binaryOpenForm_of_none hb hready (quotient_of_open hopen),
    fun hb => whereBuilt_binaryOpenForm_of_none hb hready (remainder_of_open hopen)⟩

end Sys2Proof.Machine
end

section
/-! Exceptions (spec/60_exceptions.md R242, R243, R245, R246): where a step stops before it executes anything, that the
default MEM_MAP holds every fetch and every stack cell, and that on it a stack instruction stops only where it would
store into the word being executed. -/

namespace Sys2Proof.Machine

/-! ### A step that executes nothing (R242 (a), R245) -/

theorem step_of_ended {s : State} (h : s.runEnded = true) : step s = .fault .runEnded := if_pos h

theorem fetch_of_unmapped {s : State} (h : s.mapped s.pc.toNat 1 = false) : s.fetch = .fault .unmapped := by
  rw [State.fetch, access_of_unmapped h, bind_fault]

theorem step_of_unmapped {s : State} (hopen : s.runEnded = false) (h : s.mapped s.pc.toNat 1 = false) :
    step s = .fault .unmapped := by
  simp [step, hopen, fetch_of_unmapped h]

/-- Settles O7: the end of the run is looked at first, and then the fetch. -/
theorem stepStopsAtTheEndAndAtUnmappedCode : Obligations.StepStopsAtTheEndAndAtUnmappedCode :=
  fun _ => ⟨step_of_ended, step_of_unmapped⟩

/-! ### What the default MEM_MAP holds (R21, R22, R47) -/

/-- Settles O51: `pc` has `L` bits, and every cell lies below `2^L` (`sa_add_four_le`). -/
theorem defaultMapHoldsEveryFetchAndStackCell : Obligations.DefaultMapHoldsEveryFetchAndStackCell := by
  intro s hs hmap
  obtain ⟨-, hpc, -⟩ := wf_iff.mp hs
  exact ⟨plain_of_defaultMemMap hmap hpc, cellReadable_of_defaultMemMap hmap hs⟩

/-! ### Stack operations on the default MEM_MAP -/

/-- The operation goes on wherever the bytes `stored` (lowest address, number of bytes) miss the word being executed. -/
def State.GoesOnStoring (s : State) (stored : Nat × Nat) (r : Res State) : Prop :=
  s.hitsExecutingWord stored.1 stored.2 = false → ∃ t, r = .next t

section
variable {s : State} (hs : s.wf = true) (hmap : s.cfg.memMap = defaultMemMap s.cfg.addrBits)
include hs hmap

theorem cellWritable_of_defaultMemMap {k : CellIndex} (h : s.hitsExecutingWord (s.sa k) 4 = false) :
    s.cellWritable k = true :=
  writable_iff.mpr ⟨cellReadable_of_defaultMemMap hmap hs k, h⟩

theorem unaryReady_of_defaultMemMap (h : s.hitsExecutingWord (s.sa 0#30) 4 = false) : s.unaryReady = true :=
  unaryReady_of_cellWritable (cellWritable_of_defaultMemMap hs hmap h)

theorem binaryReady_of_defaultMemMap (h : s.hitsExecutingWord (s.sa 1#30) 4 = false) : s.binaryReady = true := by
  simp [State.binaryReady, cellReadable_of_defaultMemMap hmap hs, cellWritable_of_defaultMemMap hs hmap h]

/-! One lemma for each operand form, at the cell the form stores to. -/

theorem goesOn_pushForm (v : Word) : s.GoesOnStoring (s.sa (-1#30), 4) (pushForm v s) :=
  fun h => ⟨_, pushForm_of_ready (cellWritable_of_defaultMemMap hs hmap h) v⟩

theorem goesOn_emulateCall (x : BitVec 5) : s.GoesOnStoring (s.sa (-1#30), 4) (s.emulateCall x) :=
  fun h => ⟨_, exec_emulate_of_pushReady (cellWritable_of_defaultMemMap hs hmap h) x⟩

theorem goesOn_loadFromCell (k : CellIndex) : s.GoesOnStoring (s.sa (-1#30), 4) (loadFromCell k s) :=
  fun h => ⟨_, loadFromCell_of_ready (cellWritable_of_defaultMemMap hs hmap h)
    (cellReadable_of_defaultMemMap hmap hs k)⟩

theorem goesOn_storeToCell (k : CellIndex) : s.GoesOnStoring (s.sa k, 4) (storeToCell k s) :=
  fun h => ⟨_, storeToCell_of_ready (cellReadable_of_defaultMemMap hmap hs _)
    (cellWritable_of_defaultMemMap hs hmap h)⟩

theorem goesOn_addFromCell (k : CellIndex) : s.GoesOnStoring (s.sa 0#30, 4) (addFromCell k s) :=
  fun h => ⟨_, addFromCell_of_ready (unaryReady_of_defaultMemMap hs hmap h)
    (cellReadable_of_defaultMemMap hmap hs k)⟩

theorem goesOn_unaryForm (f : Word → Word) : s.GoesOnStoring (s.sa 0#30, 4) (unaryForm f s) :=
  fun h => ⟨_, unaryForm_of_ready (unaryReady_of_defaultMemMap hs hmap h) f⟩

theorem goesOn_callForm (g : Word → Word) : s.GoesOnStoring (s.sa 0#30, 4) (callForm g s) :=
  fun h => ⟨_, callForm_eq_next.mpr ⟨unaryReady_of_defaultMemMap hs hmap h, rfl⟩⟩

theorem goesOn_binaryForm (f : Word → Word → Word) : s.GoesOnStoring (s.sa 1#30, 4) (binaryForm f s) :=
  fun h => ⟨_, binaryForm_of_ready (binaryReady_of_defaultMemMap hs hmap h) f⟩

/-- A division with no result of its own goes on as any other (R204, R205). -/
theorem goesOn_binaryOpenForm (f : Word → Word → Option Word) :
    s.GoesOnStoring (s.sa 1#30, 4) (binaryOpenForm f s) :=
  fun h => ⟨_, binaryOpenForm_eq_next.mpr ⟨binaryReady_of_defaultMemMap hs hmap h, rfl⟩⟩

theorem goesOn_branchForm (taken : Word → Bool) : s.GoesOnStoring (0, 0) (branchForm taken s) :=
  fun _ => ⟨_, branchForm_eq_next.mpr
    ⟨⟨cellReadable_of_defaultMemMap hmap hs _, cellReadable_of_defaultMemMap hmap hs _⟩, rfl⟩⟩

/-- An optional instruction goes on as its hardware rule does, or as the emulation call does. -/
theorem goesOn_whereBuilt {op : Nat} {stored : Nat × Nat} {hw : Res State}
    (built : s.cfg.builds op = true → s.GoesOnStoring stored hw) :
    s.GoesOnStoring (if s.cfg.builds op then stored else (s.sa (-1#30), 4)) (s.whereBuilt op hw) := by
  cases hb : s.cfg.builds op
  · rw [whereBuilt_of_unbuilt hb]
    exact goesOn_emulateCall hs hmap _
  · rw [whereBuilt_of_built hb]
    exact built hb

theorem goesOn_poppcrel : s.GoesOnStoring (footprint .poppcrel s) (exec .poppcrel s) :=
  goesOn_whereBuilt hs hmap fun hb _ =>
    ⟨_, (whereBuilt_of_built hb).symm.trans
      (exec_poppcrel_of_readable hb (cellReadable_of_defaultMemMap hmap hs _))⟩

/-- IM stores to the pushed cell the first time and to the top cell after that. -/
theorem goesOn_im (x : BitVec 7) : s.GoesOnStoring (footprint (.im x) s) (exec (.im x) s) := by
  intro h
  cases hd : s.idim
  · simp only [footprint, hd] at h
    exact ⟨_, exec_im_first hd (cellWritable_of_defaultMemMap hs hmap h) x⟩
  · simp only [footprint, hd] at h
    exact ⟨_, exec_im_next hd (unaryReady_of_defaultMemMap hs hmap h) x⟩

end

/-- Settles O57, operand form by operand form: on the default MEM_MAP every cell is readable, and the one stored to is
writable where it misses the word being executed. -/
theorem stackInstructionsCompleteOnTheDefaultMap : Obligations.StackInstructionsCompleteOnTheDefaultMap := by
  intro i s hs hmap hi
  change s.GoesOnStoring (footprint i s) (exec i s)
  have hread := cellReadable_of_defaultMemMap hmap hs 0#30
  cases i
  case shiftlleft | popint | compare | sncpy | load | store | loadb | loadh | storeb | storeh =>
    exact absurd (by decide) hi
  case im x => exact goesOn_im hs hmap x
  case breakpoint | nop => exact fun _ => ⟨_, rfl⟩
  case poppc => exact fun _ => ⟨_, returnFromCall_of_readable hread⟩
  case popsp => exact fun _ => ⟨_, exec_popsp_of_readable hread⟩
  case poppcrel => exact goesOn_poppcrel hs hmap
  case storesp | pop | popdown => exact goesOn_storeToCell hs hmap _
  case loadsp | dup | dupstackb => exact goesOn_loadFromCell hs hmap _
  case addsp | addtop | shift => exact goesOn_addFromCell hs hmap _
  case emulate | sncpy2 | wcpy | swap | config | syscall => exact goesOn_emulateCall hs hmap _
  case pushsp => exact goesOn_pushForm hs hmap _
  case pushpc => exact goesOn_whereBuilt hs hmap fun _ => goesOn_pushForm hs hmap _
  case not | flip => exact goesOn_unaryForm hs hmap _
  case neg | pushspadd => exact goesOn_whereBuilt hs hmap fun _ => goesOn_unaryForm hs hmap _
  case call | callpcrel => exact goesOn_whereBuilt hs hmap fun _ => goesOn_callForm hs hmap _
  case add | and | or => exact goesOn_binaryForm hs hmap _
  case lessthan | lessthanorequal | ulessthan | ulessthanorequal | mult | lshiftright | ashiftleft | ashiftright | eq
      | neq | sub | xor | halfmult =>
    exact goesOn_whereBuilt hs hmap fun _ => goesOn_binaryForm hs hmap _
  case div | mod => exact goesOn_whereBuilt hs hmap fun _ => goesOn_binaryOpenForm hs hmap _
  case eqbranch | neqbranch => exact goesOn_whereBuilt hs hmap fun _ => goesOn_branchForm hs hmap _

end Sys2Proof.Machine
end

section
/-! Reset and hazards (spec/70_reset_and_hazards.md R260 to R268): the state a run starts in, and the loads of the stack
cells in the hardware's stack cache. -/

namespace Sys2Proof.Machine

/-! ### The state after reset (R260 to R265) -/

/-- The model's own choice of the OPEN parameters is one the spec allows (log entries 2 and 8). -/
theorem default_config_wf : Config.default.wf = true := by decide

/-- The invariant holds after reset wherever the reset values meet it, part by part (`wf_iff`). -/
theorem wf_resetWith {c : Config} {p : Word} {q : CellIndex} {m : Memory} (hcfg : c.wf = true)
    (hpc : p.toNat < 2 ^ c.addrBits) (hsp : q.toNat < 2 ^ (c.addrBits - 2)) (hmem : m.wf = true)
    (hplain : ∀ cell ∈ m, regionAt c.memMap cell.1 = some .plain) : (State.resetWith c p q m).wf = true :=
  wf_iff.mpr ⟨hcfg, hpc, hsp, hmem, cellsPlain_iff.mpr hplain⟩

/-- Settles O9: the model's own reset state is the general one at parameters that are legal. -/
theorem resetIsWellFormed : Obligations.ResetIsWellFormed :=
  ⟨wf_resetWith default_config_wf (by decide) (by decide) wf_nil (List.forall_mem_nil _),
    fun _ _ _ _ => wf_resetWith⟩

/-- Settles O10, from the fields of the state after reset (the `resetWith` lemmas). -/
theorem resetStateValues : Obligations.ResetStateValues := fun c p q m =>
  ⟨resetWith_pc c p q m, resetWith_sp c p q m, resetWith_idim c p q m, resetWith_breakLine c p q m,
    resetWith_breakEvents c p q m, resetWith_mem c p q m, resetWith_cfg c p q m⟩

/-! ### The stack cache hazard (R268) -/

/-- Two runs of bytes with one byte in common overlap. -/
theorem overlap_of_common_byte {a n b m i j : Nat} (hj : j < n) (hi : i < m) (h : a + j = b + i) :
    overlap a n b m = true := by
  simp only [overlap, Bool.and_eq_true, decide_eq_true_eq]
  omega

/-- An access that touches the byte `SA(k) + i` of either cached cell hits the cached cells. -/
theorem hitsCachedCells_of_common_byte {s : State} {k : CellIndex} {a n i j : Nat} (hk : k = 0#30 ∨ k = 1#30)
    (hi : i < 4) (hj : j < n) (h : a + j = s.sa k + i) : s.hitsCachedCells a n = true := by
  have hover := overlap_of_common_byte hj hi h
  rw [State.hitsCachedCells, Bool.or_eq_true]
  rcases hk with rfl | rfl
  · exact .inl hover
  · exact .inr hover

section
variable {w : Width} {s : State} (hread : s.cellReadable 0#30 = true)
  (hcached : s.hitsCachedCells (s.cell 0#30).toNat (bytesIn w) = true)
include hread hcached

/-- At an aligned address the check for the cached cells is the one that refuses. -/
theorem loadForm_of_hazard (hmod : (s.cell 0#30).toNat % bytesIn w = 0) :
    loadForm w s = .refused .stackCacheHazard := by
  simp only [loadForm, readStk_of_readable hread, aligned_of_mod_eq_zero hmod, hcached, bind_next, require_true,
    Bool.not_true, require_false, bind_refused]

/-- At any other address the alignment check has refused before it (R45). -/
theorem loadForm_refused_of_hazard : ∃ r, loadForm w s = .refused r := by
  cases ha : aligned w (s.cell 0#30)
  · exact ⟨_, loadForm_of_misaligned hread ha⟩
  · exact ⟨_, loadForm_of_hazard hread hcached (beq_iff_eq.mp ha)⟩

end

/-- Settles O47: the three are one form at three widths; every address is a multiple of 1. -/
theorem stackCacheHazardIsRefused : Obligations.StackCacheHazardIsRefused := by
  intro s k i j hread hk hi
  refine ⟨fun hj h => ?word, fun hb hj h => ?half, fun hb h => ?byte⟩
  case word =>
    have hcached := hitsCachedCells_of_common_byte (n := bytesIn .word) hk hi hj h
    exact ⟨loadForm_refused_of_hazard hread hcached, loadForm_of_hazard hread hcached⟩
  case half =>
    have hcached := hitsCachedCells_of_common_byte (n := bytesIn .half) hk hi hj h
    rw [show exec .loadh s = loadForm .half s from whereBuilt_of_built hb]
    exact ⟨loadForm_refused_of_hazard hread hcached, loadForm_of_hazard hread hcached⟩
  case byte =>
    have hcached := hitsCachedCells_of_common_byte (n := bytesIn .byte) (j := 0) hk hi Nat.one_pos h
    exact (whereBuilt_of_built hb).trans (loadForm_of_hazard hread hcached (Nat.mod_one _))

end Sys2Proof.Machine
end
